-- ==== Sys2Proof/Word.lean ====
section
/-! DEFINITION. The word types of ZorChip8 CORE (spec/00_scope.md R7): every value is unsigned. -/

namespace Sys2Proof

/-- `u8`: a general register, a byte of memory, the delay timer, the immediate `NN`. -/
abbrev Byte := BitVec 8

/-- `u16`: the index register, the program counter, a stack entry, an instruction word. -/
abbrev Word := BitVec 16

/-- `u4`: the immediate `N`, a key code, an ignored nibble of an instruction word. -/
abbrev Nibble := BitVec 4

/-- `u12`: the address field `NNN`. -/
abbrev Addr12 := BitVec 12

/-- The number of a general register, `V[0]` to `V[15]` (spec/10_state.md R30). -/
abbrev RegIx := Fin 16

/-- The number of the flag register VF (spec/10_state.md R31). -/
abbrev VF : RegIx := 15

end Sys2Proof
end

