-- ==== Sys2Proof/Syntax.lean ====
section
/-! DEFINITION. The instructions: one constructor per row of spec/opcode_table.json, in the table's order (spec/30_encoding.md R114).
A nibble that an encoding ignores (R115) is kept in the constructor under the name `ign`, so that decoding loses no bit of a word;
no meaning reads it. -/

namespace Sys2Proof

inductive Instr where
  /-- `0-E0` clear the screen (spec/40_control_flow.md R142) -/
  | cls (ign : Nibble)
  /-- `0-EE` return from subroutine (R143) -/
  | ret (ign : Nibble)
  /-- `1nnn` jump (R144) -/
  | jp (nnn : Addr12)
  /-- `2nnn` call subroutine (R145) -/
  | call (nnn : Addr12)
  /-- `3xnn` skip if `V[X] = NN` (R148) -/
  | seImm (x : RegIx) (nn : Byte)
  /-- `4xnn` skip if `V[X] != NN` (R149) -/
  | sneImm (x : RegIx) (nn : Byte)
  /-- `5xy-` skip if `V[X] = V[Y]` (R150) -/
  | seReg (x y : RegIx) (ign : Nibble)
  /-- `6xnn` set register to immediate (spec/41_register_memory.md R170) -/
  | ldImm (x : RegIx) (nn : Byte)
  /-- `7xnn` add immediate, no flag (R171) -/
  | addImm (x : RegIx) (nn : Byte)
  /-- `8xy0` copy (spec/42_alu.md R180) -/
  | ldReg (x y : RegIx)
  /-- `8xy1` bitwise or (R181) -/
  | orReg (x y : RegIx)
  /-- `8xy2` bitwise and (R182) -/
  | andReg (x y : RegIx)
  /-- `8xy3` bitwise exclusive or (R183) -/
  | xorReg (x y : RegIx)
  /-- `8xy4` add with carry flag (R184) -/
  | addReg (x y : RegIx)
  /-- `8xy5` subtract, flag on strictly greater (R185) -/
  | subReg (x y : RegIx)
  /-- `8xy6` shift right by one, Y ignored (R186) -/
  | shr (x : RegIx) (ign : Nibble)
  /-- `8xy7` reverse subtract, result in `V[Y]` (R187) -/
  | subnReg (x y : RegIx)
  /-- `8xyE` shift left by one, Y ignored (R188) -/
  | shl (x : RegIx) (ign : Nibble)
  /-- `9xy-` skip if `V[X] != V[Y]` (spec/40_control_flow.md R151) -/
  | sneReg (x y : RegIx) (ign : Nibble)
  /-- `Annn` set index register (spec/41_register_memory.md R172) -/
  | ldI (nnn : Addr12)
  /-- `Bnnn` jump with offset `V[0]` (spec/40_control_flow.md R147) -/
  | jpV0 (nnn : Addr12)
  /-- `Cxnn` random byte under mask (spec/41_register_memory.md R173) -/
  | rnd (x : RegIx) (nn : Byte)
  /-- `Dxyn` draw a sprite of 8 columns and N rows (spec/43_sprite_draw.md R200) -/
  | drw (x y : RegIx) (n : Nibble)
  /-- `Ex9E` skip if key pressed (spec/40_control_flow.md R152) -/
  | skp (x : RegIx)
  /-- `ExA1` skip if key not pressed (R153) -/
  | sknp (x : RegIx)
  /-- `Fx07` read the delay timer (spec/44_key_timer_misc.md R220) -/
  | ldDt (x : RegIx)
  /-- `Fx0A` wait for a key (R221) -/
  | ldKey (x : RegIx)
  /-- `Fx15` set the delay timer (R222) -/
  | setDt (x : RegIx)
  /-- `Fx18` sound trigger (R223) -/
  | setSound (x : RegIx)
  /-- `Fx1E` add register to index (R224) -/
  | addI (x : RegIx)
  /-- `Fx29` point the index register at a font glyph (R225) -/
  | ldFont (x : RegIx)
  /-- `Fx33` store binary-coded decimal (R226) -/
  | storeBcd (x : RegIx)
  /-- `Fx55` store registers `V[0]..V[X]` (R227) -/
  | storeRegs (x : RegIx)
  /-- `Fx65` load registers `V[0]..V[X]` (R228) -/
  | loadRegs (x : RegIx)
  /-- `0---` reserved words of group 0x0: no operation (spec/40_control_flow.md R154) -/
  | rsv0 (x : Nibble) (nn : Byte)
  /-- `8---` reserved words of group 0x8: no operation (spec/42_alu.md R189) -/
  | rsv8 (x y n : Nibble)
  /-- `E---` reserved words of group 0xE: no operation (spec/40_control_flow.md R155) -/
  | rsvE (x : Nibble) (nn : Byte)
  /-- `F---` unknown sub-codes of group 0xF: silently ignored (spec/44_key_timer_misc.md R229) -/
  | nopF (x : Nibble) (nn : Byte)
  deriving DecidableEq, Repr

end Sys2Proof
end

