-- ==== Sys2Proof/WellFormed.lean ====
section
/-! DEFINITION. Which terms of `Instr` some instruction word stands for. The operand types admit only legal operands, so the checks
left are those of the four fallback rows: they hold only the sub-codes that no earlier row takes (spec/30_encoding.md R116, R120). -/

namespace Sys2Proof

/-- The sub-codes NN that group 0x0 defines (spec/30_encoding.md R114). -/
def definedIn0 (nn : Byte) : Bool := nn == 0xE0#8 || nn == 0xEE#8

/-- The sub-codes N that group 0x8 defines. -/
def definedIn8 (n : Nibble) : Bool := n.toNat ≤ 7 || n == 0xE#4

/-- The sub-codes NN that group 0xE defines. -/
def definedInE (nn : Byte) : Bool := nn == 0x9E#8 || nn == 0xA1#8

/-- The sub-codes NN that group 0xF defines. -/
def definedInF (nn : Byte) : Bool :=
  nn == 0x07#8 || nn == 0x0A#8 || nn == 0x15#8 || nn == 0x18#8 || nn == 0x1E#8 || nn == 0x29#8 || nn == 0x33#8 || nn == 0x55#8 || nn == 0x65#8

/-- The term is an instruction of the opcode table. -/
def Instr.wellFormed : Instr → Bool
  | .cls _ | .ret _ | .jp _ | .call _ | .seImm _ _ | .sneImm _ _ | .seReg _ _ _ | .ldImm _ _ | .addImm _ _ => true
  | .ldReg _ _ | .orReg _ _ | .andReg _ _ | .xorReg _ _ | .addReg _ _ | .subReg _ _ | .shr _ _ | .subnReg _ _ | .shl _ _ => true
  | .sneReg _ _ _ | .ldI _ | .jpV0 _ | .rnd _ _ | .drw _ _ _ | .skp _ | .sknp _ => true
  | .ldDt _ | .ldKey _ | .setDt _ | .setSound _ | .addI _ | .ldFont _ | .storeBcd _ | .storeRegs _ | .loadRegs _ => true
  | .rsv0 _ nn => !definedIn0 nn
  | .rsv8 _ _ n => !definedIn8 n
  | .rsvE _ nn => !definedInE nn
  | .nopF _ nn => !definedInF nn

end Sys2Proof
end

