-- ==== Sys2Proof/Decode.lean ====
section
/-! DEFINITION. From bytes to instructions and back (spec/30_encoding.md). The decoder is total on words (R120) and rejects, by name,
only a byte sequence that holds no whole instruction. After it the encoder, and the opcode table's rows. -/

namespace Sys2Proof

/-! ## The fields of an instruction word (R111) -/

/-- The group, bits 15:12. -/
def fieldGroup (op : Word) : Fin 16 := (op.extractLsb' 12 4).toFin

/-- Bits 11:8 as they stand. -/
def nibbleX (op : Word) : Nibble := op.extractLsb' 8 4

/-- Bits 7:4 as they stand. -/
def nibbleY (op : Word) : Nibble := op.extractLsb' 4 4

/-- `X`, bits 11:8, as a register number. -/
def fieldX (op : Word) : RegIx := (nibbleX op).toFin

/-- `Y`, bits 7:4, as a register number. -/
def fieldY (op : Word) : RegIx := (nibbleY op).toFin

/-- `N`, bits 3:0. -/
def fieldN (op : Word) : Nibble := op.extractLsb' 0 4

/-- `NN`, bits 7:0. -/
def fieldNN (op : Word) : Byte := op.extractLsb' 0 8

/-- `NNN`, bits 11:0. -/
def fieldNNN (op : Word) : Addr12 := op.extractLsb' 0 12

/-! ## Decoding: first on the group, then on a sub-code in groups 0x0, 0x8, 0xE and 0xF (R114, R115) -/

/-- Group 0x0 selects on NN alone. -/
def decodeGroup0 (op : Word) : Instr :=
  if fieldNN op = 0xE0#8 then .cls (nibbleX op)
  else if fieldNN op = 0xEE#8 then .ret (nibbleX op)
  else .rsv0 (nibbleX op) (fieldNN op)

/-- Group 0x8 selects on N. -/
def decodeGroup8 (op : Word) : Instr :=
  match (fieldN op).toFin with
  | 0x0 => .ldReg (fieldX op) (fieldY op)
  | 0x1 => .orReg (fieldX op) (fieldY op)
  | 0x2 => .andReg (fieldX op) (fieldY op)
  | 0x3 => .xorReg (fieldX op) (fieldY op)
  | 0x4 => .addReg (fieldX op) (fieldY op)
  | 0x5 => .subReg (fieldX op) (fieldY op)
  | 0x6 => .shr (fieldX op) (nibbleY op)
  | 0x7 => .subnReg (fieldX op) (fieldY op)
  | 0xE => .shl (fieldX op) (nibbleY op)
  | _ => .rsv8 (nibbleX op) (nibbleY op) (fieldN op)

/-- Group 0xE selects on NN. -/
def decodeGroupE (op : Word) : Instr :=
  if fieldNN op = 0x9E#8 then .skp (fieldX op)
  else if fieldNN op = 0xA1#8 then .sknp (fieldX op)
  else .rsvE (nibbleX op) (fieldNN op)

/-- Group 0xF selects on NN. -/
def decodeGroupF (op : Word) : Instr :=
  if fieldNN op = 0x07#8 then .ldDt (fieldX op)
  else if fieldNN op = 0x0A#8 then .ldKey (fieldX op)
  else if fieldNN op = 0x15#8 then .setDt (fieldX op)
  else if fieldNN op = 0x18#8 then .setSound (fieldX op)
  else if fieldNN op = 0x1E#8 then .addI (fieldX op)
  else if fieldNN op = 0x29#8 then .ldFont (fieldX op)
  else if fieldNN op = 0x33#8 then .storeBcd (fieldX op)
  else if fieldNN op = 0x55#8 then .storeRegs (fieldX op)
  else if fieldNN op = 0x65#8 then .loadRegs (fieldX op)
  else .nopF (nibbleX op) (fieldNN op)

/-- The instruction that a word stands for: every word stands for one (R116, R120). The last arm is group 0xF. -/
def decodeWord (op : Word) : Instr :=
  match fieldGroup op with
  | 0x0 => decodeGroup0 op
  | 0x1 => .jp (fieldNNN op)
  | 0x2 => .call (fieldNNN op)
  | 0x3 => .seImm (fieldX op) (fieldNN op)
  | 0x4 => .sneImm (fieldX op) (fieldNN op)
  | 0x5 => .seReg (fieldX op) (fieldY op) (fieldN op)
  | 0x6 => .ldImm (fieldX op) (fieldNN op)
  | 0x7 => .addImm (fieldX op) (fieldNN op)
  | 0x8 => decodeGroup8 op
  | 0x9 => .sneReg (fieldX op) (fieldY op) (fieldN op)
  | 0xA => .ldI (fieldNNN op)
  | 0xB => .jpV0 (fieldNNN op)
  | 0xC => .rnd (fieldX op) (fieldNN op)
  | 0xD => .drw (fieldX op) (fieldY op) (fieldN op)
  | 0xE => decodeGroupE op
  | _ => decodeGroupF op

/-- Why bytes are no instruction. -/
inductive DecodeError where
  /-- fewer than the two bytes that every instruction has (R110) -/
  | truncated
  deriving DecidableEq, Repr

/-- The word that two bytes form, the one at the lower address first: big-endian (spec/20_memory.md R86). -/
def joinBytes (hi lo : Byte) : Word := hi ++ lo

/-- The two bytes of a word as memory holds them, the one at the lower address first (R86). -/
def splitWord (op : Word) : Byte × Byte := (op.extractLsb' 8 8, op.extractLsb' 0 8)

/-- The instruction at the front of a byte sequence, and the bytes after it. -/
def decode : List Byte → Except DecodeError (Instr × List Byte)
  | hi :: lo :: rest => .ok (decodeWord (joinBytes hi lo), rest)
  | _ => .error .truncated

/-! ## Encoding -/

/-- Format `A`: group and `NNN` (R112). -/
def packA (group : Nibble) (nnn : Addr12) : Word := group ++ nnn

/-- Formats `I` and `S`: group, `X` and `NN`, which format `S` uses as a sub-code. -/
def packI (group x : Nibble) (nn : Byte) : Word := group ++ x ++ nn

/-- Format `R`: group, `X`, `Y` and `N`. -/
def packR (group x y n : Nibble) : Word := group ++ x ++ y ++ n

/-- The bits of a register number. -/
def regBits (x : RegIx) : Nibble := BitVec.ofFin x

/-- The word of an instruction (R114). -/
def encode : Instr → Word
  | .cls ign => packI 0x0#4 ign 0xE0#8
  | .ret ign => packI 0x0#4 ign 0xEE#8
  | .jp nnn => packA 0x1#4 nnn
  | .call nnn => packA 0x2#4 nnn
  | .seImm x nn => packI 0x3#4 (regBits x) nn
  | .sneImm x nn => packI 0x4#4 (regBits x) nn
  | .seReg x y ign => packR 0x5#4 (regBits x) (regBits y) ign
  | .ldImm x nn => packI 0x6#4 (regBits x) nn
  | .addImm x nn => packI 0x7#4 (regBits x) nn
  | .ldReg x y => packR 0x8#4 (regBits x) (regBits y) 0x0#4
  | .orReg x y => packR 0x8#4 (regBits x) (regBits y) 0x1#4
  | .andReg x y => packR 0x8#4 (regBits x) (regBits y) 0x2#4
  | .xorReg x y => packR 0x8#4 (regBits x) (regBits y) 0x3#4
  | .addReg x y => packR 0x8#4 (regBits x) (regBits y) 0x4#4
  | .subReg x y => packR 0x8#4 (regBits x) (regBits y) 0x5#4
  | .shr x ign => packR 0x8#4 (regBits x) ign 0x6#4
  | .subnReg x y => packR 0x8#4 (regBits x) (regBits y) 0x7#4
  | .shl x ign => packR 0x8#4 (regBits x) ign 0xE#4
  | .sneReg x y ign => packR 0x9#4 (regBits x) (regBits y) ign
  | .ldI nnn => packA 0xA#4 nnn
  | .jpV0 nnn => packA 0xB#4 nnn
  | .rnd x nn => packI 0xC#4 (regBits x) nn
  | .drw x y n => packR 0xD#4 (regBits x) (regBits y) n
  | .skp x => packI 0xE#4 (regBits x) 0x9E#8
  | .sknp x => packI 0xE#4 (regBits x) 0xA1#8
  | .ldDt x => packI 0xF#4 (regBits x) 0x07#8
  | .ldKey x => packI 0xF#4 (regBits x) 0x0A#8
  | .setDt x => packI 0xF#4 (regBits x) 0x15#8
  | .setSound x => packI 0xF#4 (regBits x) 0x18#8
  | .addI x => packI 0xF#4 (regBits x) 0x1E#8
  | .ldFont x => packI 0xF#4 (regBits x) 0x29#8
  | .storeBcd x => packI 0xF#4 (regBits x) 0x33#8
  | .storeRegs x => packI 0xF#4 (regBits x) 0x55#8
  | .loadRegs x => packI 0xF#4 (regBits x) 0x65#8
  | .rsv0 x nn => packI 0x0#4 x nn
  | .rsv8 x y n => packR 0x8#4 x y n
  | .rsvE x nn => packI 0xE#4 x nn
  | .nopF x nn => packI 0xF#4 x nn

/-- The two bytes of an instruction as memory holds them. -/
def encodeBytes (i : Instr) : List Byte := [(splitWord (encode i)).1, (splitWord (encode i)).2]

/-! ## The opcode table (spec/opcode_table.json, R120) -/

/-- The mnemonic of an instruction's row, letter for letter as spec/opcode_table.json has it. -/
def Instr.mnemonic : Instr → String
  | .cls _ => "CLS"
  | .ret _ => "RET"
  | .jp _ => "JP_nnn"
  | .call _ => "CALL_nnn"
  | .seImm _ _ => "SE_Vx__nn"
  | .sneImm _ _ => "SNE_Vx__nn"
  | .seReg _ _ _ => "SE_Vx__Vy"
  | .ldImm _ _ => "LD_Vx__nn"
  | .addImm _ _ => "ADD_Vx__nn"
  | .ldReg _ _ => "LD_Vx__Vy"
  | .orReg _ _ => "OR_Vx__Vy"
  | .andReg _ _ => "AND_Vx__Vy"
  | .xorReg _ _ => "XOR_Vx__Vy"
  | .addReg _ _ => "ADD_Vx__Vy"
  | .subReg _ _ => "SUB_Vx__Vy"
  | .shr _ _ => "SHR_Vx"
  | .subnReg _ _ => "SUBN_Vx__Vy"
  | .shl _ _ => "SHL_Vx"
  | .sneReg _ _ _ => "SNE_Vx__Vy"
  | .ldI _ => "LD_I__nnn"
  | .jpV0 _ => "JP_V0__nnn"
  | .rnd _ _ => "RND_Vx__nn"
  | .drw _ _ _ => "DRW_Vx__Vy__n"
  | .skp _ => "SKP_Vx"
  | .sknp _ => "SKNP_Vx"
  | .ldDt _ => "LD_Vx__DT"
  | .ldKey _ => "LD_Vx__K"
  | .setDt _ => "LD_DT__Vx"
  | .setSound _ => "LD_ST__Vx"
  | .addI _ => "ADD_I__Vx"
  | .ldFont _ => "LD_F__Vx"
  | .storeBcd _ => "LD_B__Vx"
  | .storeRegs _ => "LD__I___Vx"
  | .loadRegs _ => "LD_Vx___I"
  | .rsv0 _ _ => "RSV0"
  | .rsv8 _ _ _ => "RSV8"
  | .rsvE _ _ => "RSVE"
  | .nopF _ _ => "NOPF"

/-- A row of the opcode table: it matches a word `op` when `op` under the mask is the match value (R120). -/
structure OpcodeRow where
  name : String
  mask : Word
  value : Word
  deriving DecidableEq, Repr

/-- The row matches the word. -/
def OpcodeRow.selects (r : OpcodeRow) (op : Word) : Bool := op &&& r.mask == r.value

/-- The rows of groups 0x0 to 0x7. -/
def opcodeRowsLow : List OpcodeRow :=
  [ ⟨"CLS", 0xF0FF, 0x00E0⟩, ⟨"RET", 0xF0FF, 0x00EE⟩, ⟨"JP_nnn", 0xF000, 0x1000⟩, ⟨"CALL_nnn", 0xF000, 0x2000⟩,
    ⟨"SE_Vx__nn", 0xF000, 0x3000⟩, ⟨"SNE_Vx__nn", 0xF000, 0x4000⟩, ⟨"SE_Vx__Vy", 0xF000, 0x5000⟩, ⟨"LD_Vx__nn", 0xF000, 0x6000⟩,
    ⟨"ADD_Vx__nn", 0xF000, 0x7000⟩ ]

/-- The rows of group 0x8. -/
def opcodeRowsAlu : List OpcodeRow :=
  [ ⟨"LD_Vx__Vy", 0xF00F, 0x8000⟩, ⟨"OR_Vx__Vy", 0xF00F, 0x8001⟩, ⟨"AND_Vx__Vy", 0xF00F, 0x8002⟩, ⟨"XOR_Vx__Vy", 0xF00F, 0x8003⟩,
    ⟨"ADD_Vx__Vy", 0xF00F, 0x8004⟩, ⟨"SUB_Vx__Vy", 0xF00F, 0x8005⟩, ⟨"SHR_Vx", 0xF00F, 0x8006⟩, ⟨"SUBN_Vx__Vy", 0xF00F, 0x8007⟩,
    ⟨"SHL_Vx", 0xF00F, 0x800E⟩ ]

/-- The rows of groups 0x9 to 0xF. -/
def opcodeRowsHigh : List OpcodeRow :=
  [ ⟨"SNE_Vx__Vy", 0xF000, 0x9000⟩, ⟨"LD_I__nnn", 0xF000, 0xA000⟩, ⟨"JP_V0__nnn", 0xF000, 0xB000⟩, ⟨"RND_Vx__nn", 0xF000, 0xC000⟩,
    ⟨"DRW_Vx__Vy__n", 0xF000, 0xD000⟩, ⟨"SKP_Vx", 0xF0FF, 0xE09E⟩, ⟨"SKNP_Vx", 0xF0FF, 0xE0A1⟩, ⟨"LD_Vx__DT", 0xF0FF, 0xF007⟩,
    ⟨"LD_Vx__K", 0xF0FF, 0xF00A⟩, ⟨"LD_DT__Vx", 0xF0FF, 0xF015⟩, ⟨"LD_ST__Vx", 0xF0FF, 0xF018⟩, ⟨"ADD_I__Vx", 0xF0FF, 0xF01E⟩,
    ⟨"LD_F__Vx", 0xF0FF, 0xF029⟩, ⟨"LD_B__Vx", 0xF0FF, 0xF033⟩, ⟨"LD__I___Vx", 0xF0FF, 0xF055⟩, ⟨"LD_Vx___I", 0xF0FF, 0xF065⟩ ]

/-- The four fallback rows, which come last. -/
def opcodeRowsFallback : List OpcodeRow :=
  [⟨"RSV0", 0xF000, 0x0000⟩, ⟨"RSV8", 0xF000, 0x8000⟩, ⟨"RSVE", 0xF000, 0xE000⟩, ⟨"NOPF", 0xF000, 0xF000⟩]

/-- The 34 instruction rows. -/
def opcodeRows : List OpcodeRow := opcodeRowsLow ++ opcodeRowsAlu ++ opcodeRowsHigh

/-- The opcode table; the first row that matches a word names its instruction (R120). -/
def opcodeTable : List OpcodeRow := opcodeRows ++ opcodeRowsFallback

/-! ## The host's words, numbered as spec/opcode_table.json numbers them -/

/-- The instruction word of a table row: `nbits` bits of `w`, the bits above them 0. -/
def tableWord (nbits w : Nat) : Word := BitVec.ofNat 16 (w % 2 ^ nbits)

/-- What the decoder reads from a table row's word, laid out in memory order. -/
def decodeTableWord (nbits w : Nat) : Option Instr :=
  match decode [(splitWord (tableWord nbits w)).1, (splitWord (tableWord nbits w)).2] with
  | .ok (i, []) => some i
  | _ => none

end Sys2Proof
end

