-- ==== Sys2Proof/Config.lean ====
section
/-! DEFINITION. The parameters of the machine (spec/00_scope.md R6) and the inputs that the environment chooses (R10): the operations,
the schedule of the agents, the random byte. The default of the parameter `FONT` stands in Machine/Font.lean. -/

namespace Sys2Proof

/-- `MEM_SIZE`: addresses 0x000 to 0xFFF (R6, spec/20_memory.md R80). -/
abbrev Config.memSize : Nat := 0x1000

/-- `PROG_BASE`: where LOAD puts an image, and the entry point (R6, spec/20_memory.md R81). -/
abbrev Config.progBase : Nat := 0x200

/-- `PROG_MAX`: the largest image LOAD takes, 0x1000 − 0x200 bytes (R6). -/
abbrev Config.progMax : Nat := 3584

/-- The parameter `FONT`, any 80 bytes: byte k stands at address `FONT_BASE` + k, and `FONT_BASE` is 0x000 (R6, spec/20_memory.md R83).
A machine's table is `State.font`. -/
abbrev Font := Vector Byte 80

/-- The six atomic operations that drive the Machine (spec/00_scope.md R9). -/
inductive Operation where
  /-- RESET() (spec/70_reset_and_hazards.md R300) -/
  | reset
  /-- LOAD(bytes) (R303) -/
  | load (bytes : List Byte)
  /-- STEP() (spec/30_encoding.md R113) -/
  | step
  /-- TICK() (spec/60_exceptions.md R268) -/
  | tick
  /-- KEY_DOWN(c) (R270) -/
  | keyDown (c : Nibble)
  /-- KEY_UP(c) (R270) -/
  | keyUp (c : Nibble)
  deriving DecidableEq, Repr, Inhabited

/-- The n-th operation that the agents choose where `Scheduler.free` leaves the choice to them (spec/60_exceptions.md R276): a FREE
VALUE, so the sequence is any unending interleaving of the operations. DESIGN CHOICE: assumption log 2. -/
opaque Config.freeOperation : Nat → Operation

/-- The byte that the environment supplies to the n-th executed CXNN (`draw_rnd()`, spec/60_exceptions.md R274): a FREE VALUE, any
byte. It has no body, so no proof can know it. DESIGN CHOICE, safe unless two runs are compared: assumption log 1. -/
opaque Config.freeRandom : Nat → Byte

end Sys2Proof
end

