-- ==== Sys2Proof/Machine/Font.lean ====
section
/-! DEFINITION. The default font table, and the reset contents of memory for any font (spec/20_memory.md R82, R83). -/

namespace Sys2Proof.Machine

/-- The glyphs of the digits 0 to 7, five rows each (R83's default table; PRESUMED, unsafe: assumption log 5). -/
def fontLow : List (List Byte) :=
  [ [0xF0, 0x90, 0x90, 0x90, 0xF0], [0x20, 0x60, 0x20, 0x20, 0x70], [0xF0, 0x10, 0xF0, 0x80, 0xF0], [0xF0, 0x10, 0xF0, 0x10, 0xF0],
    [0x90, 0x90, 0xF0, 0x10, 0x10], [0xF0, 0x80, 0xF0, 0x10, 0xF0], [0xF0, 0x80, 0xF0, 0x90, 0xF0], [0xF0, 0x10, 0x20, 0x40, 0x40] ]

/-- The glyphs of the digits 8 to F. -/
def fontHigh : List (List Byte) :=
  [ [0xF0, 0x90, 0xF0, 0x90, 0xF0], [0xF0, 0x90, 0xF0, 0x10, 0xF0], [0xF0, 0x90, 0xF0, 0x90, 0x90], [0xE0, 0x90, 0xE0, 0x90, 0xE0],
    [0xF0, 0x80, 0x80, 0x80, 0xF0], [0xE0, 0x90, 0x90, 0x90, 0xE0], [0xF0, 0x80, 0xF0, 0x80, 0xF0], [0xF0, 0x80, 0xF0, 0x80, 0x80] ]

/-- The default of the parameter `FONT`: glyph d at 5·d (R81, R83). -/
def defaultFont : Font := ⟨(fontLow.flatten ++ fontHigh.flatten).toArray, by decide⟩

/-- What memory holds at an address after RESET: the font at 0x000 to 0x04F, 0x00 above it (R82). -/
def initialByte (font : Font) (a : Nat) : Byte := if h : a < 80 then font[a] else 0x00

end Sys2Proof.Machine
end

