-- ==== Sys2Proof/Machine/State.lean ====
section
/-! DEFINITION. The state of the Machine (spec/10_state.md), as plain data, and its value after RESET. -/

namespace Sys2Proof.Machine

/-- Memory: address and byte pairs, addresses strictly rising, none listed with the byte an unlisted address reads as
(`Memory.wf` in Machine/Ops.lean). An unlisted address reads as the reset contents (spec/20_memory.md R82, `initialByte`),
which are those of the machine's font. -/
abbrev Memory := List Host.Cell

/-- A grid of 64 columns and 32 rows of one-bit cells, indexed `[x][y]` (spec/10_state.md R36, R37). -/
abbrev Grid := Vector (Vector Bool 32) 64

/-- `FAULT.code` (spec/10_state.md R40, spec/60_exceptions.md R250). -/
inductive FaultCode where
  /-- 0: no fault is latched -/
  | none
  /-- 1: a fetch, DXYN, FX33, FX55 or FX65 that would reach a byte above 0xFFF (R251) -/
  | outOfBounds
  /-- 2: 2NNN with 16 entries on the stack (R252) -/
  | stackOverflow
  /-- 3: 00EE with no entry on the stack (R253) -/
  | stackUnderflow
  /-- 4: named by the source and never raised (R259) -/
  | unknownOpcode
  deriving DecidableEq, Repr

/-- The number of a fault code, a 3-bit field (R40, R250). -/
def FaultCode.bits : FaultCode → BitVec 3
  | .none => 0
  | .outOfBounds => 1
  | .stackOverflow => 2
  | .stackUnderflow => 3
  | .unknownOpcode => 4

/-- The fault latch `FAULT` (R40). -/
structure FaultReg where
  /-- what was raised; `none` while the Machine runs -/
  code : FaultCode
  /-- the address of the faulting instruction -/
  pc : Word
  /-- for OutOfBounds the lowest out-of-range address of the access, otherwise 0 -/
  addr : Word
  deriving DecidableEq, Repr

/-- Who chooses the operation that comes next when none waits in the schedule (spec/60_exceptions.md R276; assumption log 2). -/
inductive Scheduler where
  /-- the same operations in the same order, over and over; with none, a STEP each time -/
  | round (operations : List Operation)
  /-- the agents: operation number `turn` of `Config.freeOperation`, then the one after it, without end -/
  | free (turn : Nat)
  deriving DecidableEq, Repr

/-- An output event (spec/00_scope.md R8). -/
inductive Output where
  /-- `emit Frame(F)`: a copy of the framebuffer (spec/60_exceptions.md R272) -/
  | frame (cells : Grid)
  /-- `emit Sound(t)`: a tone of t units of 1/60 s (R273) -/
  | sound (ticks : Byte)
  deriving DecidableEq, Repr

/-- Everything the spec gives the Machine, and after it five fields of the MODEL's own: the machine's parameter FONT, and what its environment
does. -/
structure State where
  /-- `V[0..15]` (R30); `V[15]` is the flag register VF (R31) -/
  v : Vector Byte 16
  /-- `I`, the index register, 16 bits, never masked (R32) -/
  i : Word
  /-- `PC`, the program counter (R33) -/
  pc : Word
  /-- `STACK[0..15]`, not in memory (R34) -/
  stack : Vector Word 16
  /-- `SP`, the number of entries in use, 0 to 16 (R34) -/
  sp : Fin 17
  /-- `DT`, the delay timer (R35) -/
  dt : Byte
  /-- `F`, the framebuffer (R36) -/
  fb : Grid
  /-- `P`, the pending-clear grid (R37) -/
  pend : Grid
  /-- `RD`, the redraw-needed flag (R38) -/
  rd : Bool
  /-- `KEYS`, bit k set when key k is held (R39) -/
  keys : BitVec 16
  /-- `FAULT`, the fault latch (R40) -/
  fault : FaultReg
  /-- `MEM` (R41) -/
  mem : Memory
  /-- MODEL's own: the parameter `FONT` (R6), fixed for a machine: no operation changes it, and RESET writes it to memory (DESIGN
  CHOICE, safe: assumption log 5) -/
  font : Font
  /-- MODEL's own: the operations the agents have asked for and that have not run yet, oldest first (DESIGN CHOICE, unsafe for a claim
  that fixes it: assumption log 2) -/
  schedule : List Operation
  /-- MODEL's own: where the next operation comes from when none waits (assumption log 2) -/
  scheduler : Scheduler
  /-- MODEL's own: the output events so far, oldest first (DESIGN CHOICE, safe: assumption log 3) -/
  outputs : List Output
  /-- MODEL's own: how many random bytes CXNN has drawn (DESIGN CHOICE: assumption log 1) -/
  draws : Nat
  deriving DecidableEq, Repr

/-- The fault that STEP returns to the host, `Fault(code, pc, addr)` (spec/60_exceptions.md R254). A STEP that raises one latches it
in `State.fault` and answers the next state, and so does every STEP after it (R255, R256): the spec gives each of them an effect, so
no step of this model answers `Outcome.fault` (DESIGN CHOICE, safe: assumption log 7). `State.stepResult` reads the returned fault off the latch. -/
inductive Fault where
  /-- OutOfBounds: returned by a STEP whose fetch, DXYN, FX33, FX55 or FX65 would reach above 0xFFF (R251). Safe: the spec names it. -/
  | outOfBounds (pc addr : Word)
  /-- StackOverflow: returned by a STEP of 2NNN with a full stack (R252). Safe: the spec names it. -/
  | stackOverflow (pc : Word)
  /-- StackUnderflow: returned by a STEP of 00EE with an empty stack (R253). Safe: the spec names it. -/
  | stackUnderflow (pc : Word)
  deriving DecidableEq, Repr

/-- Why a step has no meaning. -/
inductive Refusal where
  /-- raised by an arm of `exec` whose instruction has no meaning yet; no arm of this model raises it. Safe: nothing runs. -/
  | notModelled (mnemonic : String)
  deriving DecidableEq, Repr

/-- What STEP returns to the host (R254). -/
inductive StepResult where
  | ok
  | fault (f : Fault)
  deriving DecidableEq, Repr

/-- What LOAD returns to the host (spec/70_reset_and_hazards.md R303). -/
inductive LoadResult where
  | ok
  /-- the image is larger than 3584 bytes -/
  | errOutOfBounds
  deriving DecidableEq, Repr

/-- A grid with every cell clear. -/
def Grid.clear : Grid := Vector.replicate 64 (Vector.replicate 32 false)

/-- The Machine right after RESET (spec/10_state.md R45, spec/70_reset_and_hazards.md R300). Memory lists nothing: it reads as the
reset contents. The stack's entries are the one value the spec leaves unspecified
(DESIGN CHOICE, unsafe: assumption log 4); the zeros of the spec's decision D22 are assumption log 8. The font is the default table
(PRESUMED, unsafe: assumption log 5), and the core alone acts (assumption log 2). -/
def State.reset : State where
  v := Vector.replicate 16 0x00
  i := 0x0000
  pc := 0x0200
  stack := Vector.replicate 16 0x0000
  sp := 0
  dt := 0x00
  fb := Grid.clear
  pend := Grid.clear
  rd := false
  keys := 0x0000
  fault := ⟨.none, 0x0000, 0x0000⟩
  mem := []
  font := defaultFont
  schedule := []
  scheduler := .round []
  outputs := []
  draws := 0

end Sys2Proof.Machine
end

