-- ==== Sys2Proof/Machine/Ops.lean ====
section
/-! DEFINITION. The named operations over registers, memory, the grids and the stack, and raising a fault. -/

namespace Sys2Proof.Machine

/-- What an operation of the Machine answers. -/
abbrev Result := Host.Outcome State Fault Refusal

/-! ## General registers (spec/10_state.md R30) -/

/-- `V[k]`. -/
def State.reg (s : State) (k : RegIx) : Byte := s.v[k.val]

/-- `V[k] <- b`: no register is hard-wired (R30). -/
def State.setReg (s : State) (k : RegIx) (b : Byte) : State := { s with v := s.v.set k.val b }

/-! ## Memory (spec/20_memory.md) -/

/-- The byte at an address, in the memory of a machine with the given font. -/
def Memory.read (m : Memory) (font : Font) (a : Nat) : Byte :=
  match m with
  | [] => initialByte font a
  | (k, b) :: rest => if k = a then b else Memory.read rest font a

/-- The memory without what it lists at an address. -/
def Memory.erase (m : Memory) (a : Nat) : Memory := m.filter fun c => c.1 != a

/-- List a byte at its place among rising addresses. -/
def Memory.insert (m : Memory) (a : Nat) (b : Byte) : Memory :=
  match m with
  | [] => [(a, b)]
  | (k, c) :: rest => if k < a then (k, c) :: Memory.insert rest a b else (a, b) :: (k, c) :: rest

/-- Store a byte, keeping the canonical form. -/
def Memory.write (m : Memory) (font : Font) (a : Nat) (b : Byte) : Memory :=
  if b = initialByte font a then m.erase a else (m.erase a).insert a b

/-- The canonical form: addresses of the address space, strictly rising, no byte that an unlisted address reads as. -/
abbrev Memory.wf (m : Memory) (font : Font) : Prop :=
  m.Pairwise (fun c d => c.1 < d.1) ∧ ∀ c ∈ m, c.1 < Config.memSize ∧ c.2 ≠ initialByte font c.1

/-- `MemRead(a, 1)` for an address that a bounds check has passed (R84). -/
def State.readByte (s : State) (a : Nat) : Byte := s.mem.read s.font a

/-- `MemWrite(a, 1, b)` for an address that a bounds check has passed (R84). -/
def State.writeByte (s : State) (a : Nat) (b : Byte) : State := { s with mem := s.mem.write s.font a b }

/-- Store bytes at `a`, `a + 1`, … in that order. -/
def State.writeBytes (s : State) (a : Nat) : List Byte → State
  | [] => s
  | b :: bs => (s.writeByte a b).writeBytes (a + 1) bs

/-! ## Raising a fault, and the halted Machine (spec/60_exceptions.md R254 to R258) -/

/-- Fault entry (R255): the latch is written and PC is back at the faulting instruction. Every rule checks before it writes, so nothing
else of the STEP is there to discard. There is no return: only RESET clears the latch (R258). -/
def State.latchFault (s : State) (code : FaultCode) (pc0 addr : Word) : State := { s with pc := pc0, fault := ⟨code, pc0, addr⟩ }

/-- `raise` inside an instruction, where PC already holds `pc0 + 2` (spec/40_control_flow.md R140). -/
def State.raise (s : State) (code : FaultCode) (addr : Word) : Result := .next (s.latchFault code (s.pc - 2) addr)

/-- The Machine is halted while a fault is latched (R256). -/
def State.halted (s : State) : Bool := s.fault.code != .none

/-- What the STEP that led to this state returned to the host: the latched fault, if there is one (R254 to R256). -/
def State.stepResult (s : State) : StepResult :=
  match s.fault.code with
  | .none | .unknownOpcode => .ok
  | .outOfBounds => .fault (.outOfBounds s.fault.pc s.fault.addr)
  | .stackOverflow => .fault (.stackOverflow s.fault.pc)
  | .stackUnderflow => .fault (.stackUnderflow s.fault.pc)

/-! ## The bounds rule (spec/20_memory.md R84) -/

/-- The highest of the addresses base, …, base + n − 1 is at most 0xFFF, as an exact sum; with n = 0 there is none
(enforced by DESIGN CHOICE of the spec, safe: assumption log 15). -/
abbrev RangeOk (base : Word) (n : Nat) : Prop := n = 0 ∨ base.toNat + (n - 1) ≤ 0xFFF

/-- The lowest address above 0xFFF of an access that starts at base and ends above 0xFFF: `max(base, 0x1000)` (R251). -/
def firstOutside (base : Word) : Word := if base.toNat ≤ 0x1000 then 0x1000 else base

/-- Raise OutOfBounds unless the n bytes from base lie in memory; otherwise go on. -/
def State.checkRange (s : State) (base : Word) (n : Nat) (go : Result) : Result :=
  if RangeOk base n then go else s.raise .outOfBounds (firstOutside base)

/-! ## The call stack (spec/10_state.md R34) -/

/-- Push a return address; none when the stack is full. -/
def State.push (s : State) (w : Word) : Option State :=
  if h : s.sp.val < 16 then some { s with stack := s.stack.set s.sp.val w, sp := ⟨s.sp.val + 1, by omega⟩ } else none

/-- Pop the newest return address; none when the stack is empty. -/
def State.pop (s : State) : Option (Word × State) :=
  if h : 0 < s.sp.val then some (s.stack[s.sp.val - 1], { s with sp := ⟨s.sp.val - 1, by omega⟩ }) else none

/-! ## Grids (spec/10_state.md R36, R37) -/

/-- The cell in column x and row y. -/
def Grid.cell (g : Grid) (x : Fin 64) (y : Fin 32) : Bool := g[x.val][y.val]

/-- Write one cell. -/
def Grid.setCell (g : Grid) (x : Fin 64) (y : Fin 32) (b : Bool) : Grid := g.set x.val (g[x.val].set y.val b)

/-- The grid with the given cells. -/
def Grid.ofCells (cell : Fin 64 → Fin 32 → Bool) : Grid := Vector.ofFn fun x => Vector.ofFn fun y => cell x y

/-- Some cell of the 64 × 32 has the property. -/
def anyCell (p : Fin 64 → Fin 32 → Bool) : Bool := (List.finRange 64).any fun x => (List.finRange 32).any fun y => p x y

/-! ## Output events -/

/-- `emit e`: the event follows those emitted before it. -/
def State.emit (s : State) (e : Output) : State := { s with outputs := s.outputs ++ [e] }

end Sys2Proof.Machine
end

