-- ==== Sys2Proof/Machine/Flags.lean ====
section
/-! DEFINITION. The flag values that instructions write to VF (spec/10_state.md R31), and the order of the flag's write and the
result's (spec/42_alu.md R190). -/

namespace Sys2Proof.Machine

/-- A flag as a register holds it: exactly 0 or 1. -/
def flagByte (set : Bool) : Byte := if set then 1 else 0

/-- 8XY4: the unwrapped sum exceeds 255 (spec/42_alu.md R184). -/
def carryFlag (a b : Byte) : Byte := flagByte (decide (a.toNat + b.toNat > 255))

/-- 8XY5 and 8XY7: the minuend is strictly greater (R185, R187). -/
def greaterFlag (a b : Byte) : Byte := flagByte (decide (a.toNat > b.toNat))

/-- 8XY6: bit 0 before the shift (R186). -/
def lowBitFlag (a : Byte) : Byte := flagByte (a.getLsbD 0)

/-- 8XYE: bit 7 before the shift (R188). -/
def highBitFlag (a : Byte) : Byte := flagByte (a.getLsbD 7)

/-- First VF takes the flag, then the destination takes a result computed from the registers as they are AFTER that write (R190,
spec/92_eei_decisions.md D13; DESIGN CHOICE of the spec, unsafe: assumption log 11). -/
def State.flagThenWrite (s : State) (flag : Byte) (dst : RegIx) (result : State → Byte) : State :=
  (s.setReg VF flag).setReg dst (result (s.setReg VF flag))

end Sys2Proof.Machine
end

