-- ==== Sys2Proof/Machine/Alu.lean ====
section
/-! DEFINITION. The arithmetic and logic group, group 0x8 (spec/42_alu.md). -/

namespace Sys2Proof.Machine

/-- LD Vx, Vy (R180). -/
def execLdReg (x y : RegIx) (s : State) : Result := .next (s.setReg x (s.reg y))

/-- OR Vx, Vy (R181). -/
def execOrReg (x y : RegIx) (s : State) : Result := .next (s.setReg x (s.reg x ||| s.reg y))

/-- AND Vx, Vy (R182). -/
def execAndReg (x y : RegIx) (s : State) : Result := .next (s.setReg x (s.reg x &&& s.reg y))

/-- XOR Vx, Vy (R183). -/
def execXorReg (x y : RegIx) (s : State) : Result := .next (s.setReg x (s.reg x ^^^ s.reg y))

/-- ADD Vx, Vy (R184). -/
def execAddReg (x y : RegIx) (s : State) : Result :=
  .next (s.flagThenWrite (carryFlag (s.reg x) (s.reg y)) x fun s' => s'.reg x + s'.reg y)

/-- SUB Vx, Vy (R185). -/
def execSubReg (x y : RegIx) (s : State) : Result :=
  .next (s.flagThenWrite (greaterFlag (s.reg x) (s.reg y)) x fun s' => s'.reg x - s'.reg y)

/-- SHR Vx (R186): in place, Y ignored. -/
def execShr (x : RegIx) (s : State) : Result := .next (s.flagThenWrite (lowBitFlag (s.reg x)) x fun s' => s'.reg x / 2)

/-- SUBN Vx, Vy (R187): the result goes to Vy. -/
def execSubnReg (x y : RegIx) (s : State) : Result :=
  .next (s.flagThenWrite (greaterFlag (s.reg y) (s.reg x)) y fun s' => s'.reg y - s'.reg x)

/-- SHL Vx (R188): in place, Y ignored. -/
def execShl (x : RegIx) (s : State) : Result := .next (s.flagThenWrite (highBitFlag (s.reg x)) x fun s' => s'.reg x * 2)

/-- Reserved words of group 0x8 (R189): no operation (DESIGN CHOICE of the spec, unsafe: assumption log 9). -/
def execRsv8 (s : State) : Result := .next s

end Sys2Proof.Machine
end

