-- ==== Sys2Proof/Machine/Operands.lean ====
section
/-! DEFINITION. The operand forms (spec/30_encoding.md R117, spec/44_key_timer_misc.md R230): immediates are zero-extended, never
sign-extended; an effective address is the exact sum I + k. -/

namespace Sys2Proof.Machine

/-- `NNN` as a value of `PC` or `I`. -/
def extAddr (nnn : Addr12) : Word := nnn.setWidth 16

/-- A register's byte as a summand of a 16-bit sum. -/
def extByte (b : Byte) : Word := b.setWidth 16

/-- The address of byte k of an access based at I: the exact sum, never reduced (spec/20_memory.md R84). -/
def State.addrAt (s : State) (k : Nat) : Nat := s.i.toNat + k

/-- The target of BNNN (spec/40_control_flow.md R147). -/
def State.offsetTarget (s : State) (nnn : Addr12) : Word := extAddr nnn + extByte (s.reg 0)

/-- The address of the glyph for a byte, not masked to a digit (spec/44_key_timer_misc.md R225). -/
def glyphAddr (b : Byte) : Word := extByte b * 5

/-- The key whose code is the whole byte is held; a byte above 0xF is no key (spec/40_control_flow.md R152;
DESIGN CHOICE of the spec, unsafe: assumption log 13). -/
def State.keyHeld (s : State) (code : Byte) : Bool := code.toNat ≤ 0xF && s.keys.getLsbD code.toNat

/-- The smallest code of a held key (spec/44_key_timer_misc.md R221; DESIGN CHOICE of the spec, unsafe: assumption log 13). -/
def lowestKey (keys : BitVec 16) : Option (Fin 16) := (List.finRange 16).find? fun k => keys.getLsbD k.val

/-- The decimal digits of a byte: hundreds, tens, ones (R226). -/
def bcdDigits (b : Byte) : List Byte := [b / 100, (b / 10) % 10, b % 10]

/-- `V[0]..V[X]`, lowest first: what FX55 stores (R227). -/
def State.regsUpTo (s : State) (x : RegIx) : List Byte := s.v.toList.take (x.val + 1)

/-- The registers after FX65: `V[0]..V[X]` from memory at I, the others as they were (R228). -/
def State.regsLoaded (s : State) (x : RegIx) : Vector Byte 16 :=
  Vector.ofFn fun k => if k ≤ x then s.readByte (s.addrAt k.val) else s.reg k

/-- Advance PC past the next instruction when the condition holds: a skip is taken (spec/40_control_flow.md R141). -/
def State.skipIf (s : State) (taken : Bool) : State := if taken then { s with pc := s.pc + 2 } else s

end Sys2Proof.Machine
end

