-- ==== Sys2Proof/Machine/ControlFlow.lean ====
section
/-! DEFINITION. Clear and return, jump, call, jump with offset, and the skips (spec/40_control_flow.md). Each meaning runs after the
fetch, with PC already at `pc0 + 2` (R140). -/

namespace Sys2Proof.Machine

/-- CLS (R142): every cell of F is cleared; P and RD stay (DESIGN CHOICE of the spec, unsafe: assumption log 12). -/
def execCls (s : State) : Result := .next { s with fb := Grid.clear }

/-- RET (R143). -/
def execRet (s : State) : Result :=
  match s.pop with
  | some (w, s') => .next { s' with pc := w }
  | none => s.raise .stackUnderflow 0

/-- JP nnn (R144). -/
def execJp (nnn : Addr12) (s : State) : Result := .next { s with pc := extAddr nnn }

/-- CALL nnn (R145): the address pushed is the advanced PC. -/
def execCall (nnn : Addr12) (s : State) : Result :=
  match s.push s.pc with
  | some s' => .next { s' with pc := extAddr nnn }
  | none => s.raise .stackOverflow 0

/-- JP V0, nnn (R147). -/
def execJpV0 (nnn : Addr12) (s : State) : Result := .next { s with pc := s.offsetTarget nnn }

/-- SE Vx, nn (R148). -/
def execSeImm (x : RegIx) (nn : Byte) (s : State) : Result := .next (s.skipIf (s.reg x == nn))

/-- SNE Vx, nn (R149; the polarity is PRESUMED, unsafe: assumption log 10). -/
def execSneImm (x : RegIx) (nn : Byte) (s : State) : Result := .next (s.skipIf (s.reg x != nn))

/-- SE Vx, Vy (R150; the polarity is PRESUMED, unsafe: assumption log 10). -/
def execSeReg (x y : RegIx) (s : State) : Result := .next (s.skipIf (s.reg x == s.reg y))

/-- SNE Vx, Vy (R151; the polarity is PRESUMED, unsafe: assumption log 10). -/
def execSneReg (x y : RegIx) (s : State) : Result := .next (s.skipIf (s.reg x != s.reg y))

/-- SKP Vx (R152). -/
def execSkp (x : RegIx) (s : State) : Result := .next (s.skipIf (s.keyHeld (s.reg x)))

/-- SKNP Vx (R153). -/
def execSknp (x : RegIx) (s : State) : Result := .next (s.skipIf (!s.keyHeld (s.reg x)))

/-- Reserved words of group 0x0 (R154): no operation (DESIGN CHOICE of the spec, unsafe: assumption log 9). -/
def execRsv0 (s : State) : Result := .next s

/-- Reserved words of group 0xE (R155): no operation (DESIGN CHOICE of the spec, unsafe: assumption log 9). -/
def execRsvE (s : State) : Result := .next s

end Sys2Proof.Machine
end

