-- ==== Sys2Proof/Machine/KeyTimerMisc.lean ====
section
/-! DEFINITION. The key, timer and miscellaneous group, group 0xF (spec/44_key_timer_misc.md). -/

namespace Sys2Proof.Machine

/-- LD Vx, DT (R220). -/
def execLdDt (x : RegIx) (s : State) : Result := .next (s.setReg x s.dt)

/-- LD Vx, K (R221): with no key held PC goes back to this instruction, a busy poll; otherwise Vx takes the lowest held code. -/
def execLdKey (x : RegIx) (s : State) : Result :=
  match lowestKey s.keys with
  | none => .next { s with pc := s.pc - 2 }
  | some k => .next (s.setReg x (BitVec.ofNat 8 k.val))

/-- LD DT, Vx (R222). -/
def execSetDt (x : RegIx) (s : State) : Result := .next { s with dt := s.reg x }

/-- LD ST, Vx (R223): an event, and no state. -/
def execSetSound (x : RegIx) (s : State) : Result := .next (s.emit (.sound (s.reg x)))

/-- ADD I, Vx (R224): 16 bits, wraps, writes no flag. -/
def execAddI (x : RegIx) (s : State) : Result := .next { s with i := s.i + extByte (s.reg x) }

/-- LD F, Vx (R225). -/
def execLdFont (x : RegIx) (s : State) : Result := .next { s with i := glyphAddr (s.reg x) }

/-- LD B, Vx (R226): I stays. -/
def execStoreBcd (x : RegIx) (s : State) : Result :=
  s.checkRange s.i 3 (.next (s.writeBytes (s.addrAt 0) (bcdDigits (s.reg x))))

/-- LD [I], Vx (R227): I stays. -/
def execStoreRegs (x : RegIx) (s : State) : Result :=
  s.checkRange s.i (x.val + 1) (.next (s.writeBytes (s.addrAt 0) (s.regsUpTo x)))

/-- LD Vx, [I] (R228): I stays. -/
def execLoadRegs (x : RegIx) (s : State) : Result :=
  s.checkRange s.i (x.val + 1) (.next { s with v := s.regsLoaded x })

/-- Unknown sub-codes of group 0xF (R229): silently ignored. -/
def execNopF (s : State) : Result := .next s

end Sys2Proof.Machine
end

