-- ==== Sys2Proof/Machine/RegisterMemory.lean ====
section
/-! DEFINITION. Set and add immediate, set index, random byte (spec/41_register_memory.md). -/

namespace Sys2Proof.Machine

/-- LD Vx, nn (R170). -/
def execLdImm (x : RegIx) (nn : Byte) (s : State) : Result := .next (s.setReg x nn)

/-- ADD Vx, nn (R171): wraps, and writes no flag. -/
def execAddImm (x : RegIx) (nn : Byte) (s : State) : Result := .next (s.setReg x (s.reg x + nn))

/-- LD I, nnn (R172). -/
def execLdI (nnn : Addr12) (s : State) : Result := .next { s with i := extAddr nnn }

/-- RND Vx, nn with the random byte r that the environment supplies (R173): one draw is consumed. -/
def rndWith (r : Byte) (x : RegIx) (nn : Byte) (s : State) : State := { s.setReg x (r &&& nn) with draws := s.draws + 1 }

/-- RND Vx, nn (R173): the byte is a free value (spec/60_exceptions.md R274; DESIGN CHOICE: assumption log 1). -/
def execRnd (x : RegIx) (nn : Byte) (s : State) : Result := .next (rndWith (Config.freeRandom s.draws) x nn s)

end Sys2Proof.Machine
end

