-- ==== Sys2Proof/Machine/Sprite.lean ====
section
/-! DEFINITION. Sprite drawing with deferred clear and collision detection (spec/43_sprite_draw.md). -/

namespace Sys2Proof.Machine

/-- Step 2 of DXYN (R200): every pending clear is committed; RD is raised when one hits a set cell. -/
def State.commitClears (s : State) : State :=
  { s with
    rd := s.rd || anyCell fun x y => s.pend.cell x y && s.fb.cell x y
    fb := Grid.ofCells fun x y => s.fb.cell x y && !s.pend.cell x y
    pend := Grid.clear }

/-- Step 4 of DXYN for one pixel: the sprite bit `bit` on the cell (x, y) (R200, R203 to R205). -/
def State.drawPixel (s : State) (x : Fin 64) (y : Fin 32) (bit : Bool) : State :=
  let old := s.fb.cell x y
  let new := old ^^ bit
  let s1 := { s with
    rd := s.rd || bit
    fb := if new then s.fb.setCell x y true else s.fb
    pend := if new then s.pend else s.pend.setCell x y true }
  if old && !new then s1.setReg VF 1 else s1

/-- The column of pixel `bit` of a sprite whose origin is in column x0: the exact sum, wrapped (R208). -/
def spriteColumn (x0 : Byte) (bit : Nat) : Fin 64 := Fin.ofNat 64 (x0.toNat + bit)

/-- The row of line `row` of a sprite whose origin is in row y0: the exact sum, wrapped (R208). -/
def spriteRow (y0 : Byte) (row : Nat) : Fin 32 := Fin.ofNat 32 (y0.toNat + row)

/-- One row of the sprite, most significant bit first. -/
def State.drawRow (s : State) (x0 y0 : Byte) (row : Nat) (byte : Byte) : State :=
  (List.range 8).foldl (fun s bit => s.drawPixel (spriteColumn x0 bit) (spriteRow y0 row) (byte.getLsbD (7 - bit))) s

/-- Step 4 of DXYN: n rows, read one after another from memory at base. -/
def State.drawRows (s : State) (x0 y0 : Byte) (base n : Nat) : State :=
  (List.range n).foldl (fun s row => s.drawRow x0 y0 row (s.readByte (base + row))) s

/-- DRW Vx, Vy, n (R200): the operands are latched before any write (R201), the bounds checked before any effect
(R202); DESIGN CHOICE of the spec, unsafe: assumption log 12. -/
def execDrw (x y : RegIx) (n : Nibble) (s : State) : Result :=
  s.checkRange s.i n.toNat
    (.next ((s.commitClears.setReg VF 0).drawRows (s.reg x) (s.reg y) s.i.toNat n.toNat))

end Sys2Proof.Machine
end

