-- ==== Sys2Proof/Machine/Cycle.lean ====
section
/-! DEFINITION. The six atomic operations that drive the Machine (spec/00_scope.md R9): STEP, with fetching an instruction, TICK,
KEY_DOWN, KEY_UP, LOAD and RESET; and which of them comes next. -/

namespace Sys2Proof.Machine

/-- The instruction word at PC, from the bytes at PC and PC + 1 (spec/30_encoding.md R113). -/
def State.fetchWord (s : State) : Word := joinBytes (s.readByte s.pc.toNat) (s.readByte (s.pc.toNat + 1))

/-- STEP() (R113): halted, nothing changes (spec/60_exceptions.md R256); otherwise fetch, advance PC, decode and execute. A fetch whose
second byte lies above 0xFFF raises OutOfBounds with PC not advanced. -/
def stepOnce (s : State) : Result :=
  if s.halted then .next s
  else if RangeOk s.pc 2 then exec (decodeWord s.fetchWord) { s with pc := s.pc + 2 }
  else .next (s.latchFault .outOfBounds s.pc (firstOutside s.pc))

/-- TICK() (spec/60_exceptions.md R268): it does not look at the fault latch. -/
def tick (s : State) : State :=
  let s1 := if s.dt.toNat > 0 then { s with dt := s.dt - 1 } else s
  if s1.rd then { s1 with rd := false }.emit (.frame s1.fb) else s1

/-- KEY_DOWN(c) (R270). -/
def keyDown (c : Nibble) (s : State) : State := { s with keys := s.keys ||| (1#16 <<< c.toNat) }

/-- KEY_UP(c) (R270). -/
def keyUp (c : Nibble) (s : State) : State := { s with keys := s.keys &&& ~~~(1#16 <<< c.toNat) }

/-- What LOAD returns to the host (spec/70_reset_and_hazards.md R303). -/
def loadResult (bytes : List Byte) : LoadResult := if bytes.length ≤ Config.progMax then .ok else .errOutOfBounds

/-- LOAD(bytes) (R303): an image too large is refused whole; otherwise its bytes go to 0x200 upward and nothing else changes. -/
def load (bytes : List Byte) (s : State) : State :=
  match loadResult bytes with
  | .ok => s.writeBytes Config.progBase bytes
  | .errOutOfBounds => s

/-- RESET() (R300): every element of the Machine takes its reset value, with the machine's own font in memory. The operations to come,
the events already emitted and the count of drawn bytes are the environment's, and stay (DESIGN CHOICE, safe: assumption log 3). -/
def resetMachine (s : State) : State :=
  { State.reset with font := s.font, schedule := s.schedule, scheduler := s.scheduler, outputs := s.outputs, draws := s.draws }

/-- The operation that comes next, and the state with it taken: the oldest that waits, or with none waiting the scheduler's choice
(spec/60_exceptions.md R276). -/
def State.nextOperation (s : State) : Operation × State :=
  match s.schedule, s.scheduler with
  | op :: rest, _ => (op, { s with schedule := rest })
  | [], .round [] => (.step, s)
  | [], .round (op :: rest) => (op, { s with schedule := rest })
  | [], .free turn => (Config.freeOperation turn, { s with scheduler := .free (turn + 1) })

/-- One operation, whole (spec/00_scope.md R9). -/
def runOperation (op : Operation) (s : State) : Result :=
  match op with
  | .reset => .next (resetMachine s)
  | .load bytes => .next (load bytes s)
  | .step => stepOnce s
  | .tick => .next (tick s)
  | .keyDown c => .next (keyDown c s)
  | .keyUp c => .next (keyUp c s)

end Sys2Proof.Machine
end

