-- ==== Sys2Proof/Machine/Step.lean ====
section
/-! DEFINITION. The step of the whole system, and the host's way to place one instruction. -/

namespace Sys2Proof.Machine

/-- The operation that comes next runs whole (spec/00_scope.md R9, spec/60_exceptions.md R276; DESIGN CHOICE: assumption log 2). -/
def step (s : State) : Host.Outcome State Fault Refusal := runOperation s.nextOperation.1 s.nextOperation.2

/-- The state with an instruction placed where the next step fetches it: at PC, or at 0x200 when no fetch can be made at PC. The fault
latch is cleared, and an operation that would come first comes after the STEP. DESIGN CHOICE, safe: assumption log 6. -/
def State.withFetchWord (s : State) (nbits w : Nat) : State :=
  let pc0 : Word := if RangeOk s.pc 2 then s.pc else 0x0200
  let bytes := splitWord (tableWord nbits w)
  let waiting := match s.schedule, s.scheduler with
    | [], .round [] => []
    | later, _ => Operation.step :: later
  ({ s with pc := pc0, fault := ⟨.none, 0, 0⟩, schedule := waiting }).writeBytes pc0.toNat [bytes.1, bytes.2]

end Sys2Proof.Machine
end

