-- ==== Sys2Proof/Safety.lean ====
section
/-! DEFINITION. What counts as a safe run, the invariant of every step, and the spec's convention for a finished program. -/

namespace Sys2Proof.Machine

/-- No fault is latched: "a halted state is never a good end of a run" (spec/60_exceptions.md R256). -/
def State.safe (s : State) : Prop := s.fault.code = .none

/-- The first k steps from the state all end in a state with no fault latched. -/
def SafeRun : Nat → State → Prop
  | 0, s => s.safe
  | k + 1, s => s.safe ∧ ∃ t, step s = .next t ∧ SafeRun k t

/-- What every step keeps (spec/10_state.md R46; R40, R250, R255). The bounds of V, I, PC, SP and DT that R46 lists hold by the types of
the fields. -/
structure State.Inv (s : State) : Prop where
  /-- memory is in its canonical form and lists only addresses of the address space -/
  memory : s.mem.wf s.font
  /-- UnknownOpcode is never latched -/
  known : s.fault.code ≠ .unknownOpcode
  /-- a running Machine has an empty latch -/
  running : s.fault.code = .none → s.fault.pc = 0 ∧ s.fault.addr = 0
  /-- a halted Machine stands at the instruction that raised the fault -/
  stopped : s.fault.code ≠ .none → s.pc = s.fault.pc
  /-- the address that OutOfBounds reports lies outside memory -/
  outside : s.fault.code = .outOfBounds → Config.memSize ≤ s.fault.addr.toNat
  /-- the stack faults report no address -/
  stackFault : s.fault.code = .stackOverflow ∨ s.fault.code = .stackUnderflow → s.fault.addr = 0

/-- The program is finished: PC points at a jump to its own address and no fault is latched (spec/70_reset_and_hazards.md R309). -/
def State.finished (s : State) : Prop :=
  s.fault.code = .none ∧ RangeOk s.pc 2 ∧ ∃ nnn, decodeWord s.fetchWord = .jp nnn ∧ extAddr nnn = s.pc

end Sys2Proof.Machine
end

