-- ==== Sys2Proof/Certificates/Slice0/Obligations.lean ====
section
/-! DEFINITION. The statements for the provers. Each instruction statement speaks of the state in which `exec` runs: PC already holds
`pc0 + 2` (spec/40_control_flow.md R140). -/

namespace Sys2Proof.Claim

open Sys2Proof.Machine

/-! ## Words the statements share -/

/-- An element of the state, as a statement speaks of what an operation leaves unchanged. -/
inductive Element where
  | reg (k : RegIx) | i | pc | stack | sp | dt | fb | pend | rd | keys | fault | memory | font | schedule
  | scheduler | outputs | draws
  deriving DecidableEq, Repr

/-- The element reads in `t` as it read in `s`. Memory is read byte by byte, a grid cell by cell. -/
def Kept (s t : State) : Element → Prop
  | .reg k => t.reg k = s.reg k
  | .i => t.i = s.i
  | .pc => t.pc = s.pc
  | .stack => ∀ k : Fin 16, t.stack[k] = s.stack[k]
  | .sp => t.sp = s.sp
  | .dt => t.dt = s.dt
  | .fb => ∀ x y, t.fb.cell x y = s.fb.cell x y
  | .pend => ∀ x y, t.pend.cell x y = s.pend.cell x y
  | .rd => t.rd = s.rd
  | .keys => t.keys = s.keys
  | .fault => t.fault = s.fault
  | .memory => ∀ a, t.readByte a = s.readByte a
  | .font => t.font = s.font
  | .schedule => t.schedule = s.schedule
  | .scheduler => t.scheduler = s.scheduler
  | .outputs => t.outputs = s.outputs
  | .draws => t.draws = s.draws

/-- Every element is kept but those named. -/
def KeptBut (touched : List Element) (s t : State) : Prop := ∀ e, e ∉ touched → Kept s t e

/-- Memory outside the n bytes from an address is kept. -/
def MemoryKeptOutside (lo n : Nat) (s t : State) : Prop := ∀ a, a < lo ∨ lo + n ≤ a → t.readByte a = s.readByte a

/-- Every word with the given bits under the mask decodes to the given instruction. -/
def Encodes (mask value : Word) (instr : Word → Instr) : Prop := ∀ op : Word, op &&& mask = value → decodeWord op = instr op

/-- Fault entry inside an instruction (spec/60_exceptions.md R255): the latch is written, PC is back at `pc0`, all else is kept. -/
def faulted (s : State) (code : FaultCode) (addr : Word) : State := { s with pc := s.pc - 2, fault := ⟨code, s.pc - 2, addr⟩ }

/-- The instruction raises OutOfBounds and reports the larger of the base and 0x1000. -/
def RaisesOutOfBounds (i : Instr) (s : State) (base : Word) : Prop :=
  ∃ addr : Word, addr.toNat = max base.toNat 0x1000 ∧ exec i s = .next (faulted s .outOfBounds addr)

/-- The instruction always completes and writes one register. -/
def WritesReg (i : Instr) (k : RegIx) (value : State → Byte) : Prop :=
  ∀ s, ∃ t, exec i s = .next t ∧ t.reg k = value s ∧ KeptBut [.reg k] s t

/-- The instruction always completes; PC moves past one more instruction exactly when the condition holds. -/
def Skips (i : Instr) (taken : State → Prop) : Prop :=
  ∀ s, ∃ t, exec i s = .next t ∧ (taken s → t.pc = s.pc + 2) ∧ (¬taken s → t.pc = s.pc) ∧ KeptBut [.pc] s t

/-- The instruction always completes and changes nothing. -/
def DoesNothing (i : Instr) : Prop := ∀ s, exec i s = .next s

/-- The operation that comes next in state s, and the state u it runs in: the oldest that waits; with none waiting the first of the
scheduler's round, whose others then wait; with an empty round a STEP; with a free scheduler any operation (assumption log 2). -/
def ComesNext (s : State) (op : Operation) (u : State) : Prop :=
  (∃ rest, s.schedule = op :: rest ∧ u = { s with schedule := rest }) ∨
  s.schedule = [] ∧ ((∃ rest, s.scheduler = .round (op :: rest) ∧ u = { s with schedule := rest }) ∨
    s.scheduler = .round [] ∧ op = .step ∧ u = s ∨
    ∃ turn, s.scheduler = .free turn ∧ op = Config.freeOperation turn ∧ u = { s with scheduler := .free (turn + 1) })

/-- The STEP that led to the state returned what the latch says: Ok while nothing is latched, otherwise the Fault with the latch's code,
pc and addr (spec/60_exceptions.md R254 to R256). -/
def ReturnsLatch (t : State) : Prop :=
  (t.fault.code = .none → t.stepResult = .ok) ∧
  (t.fault.code = .outOfBounds → t.stepResult = .fault (.outOfBounds t.fault.pc t.fault.addr)) ∧
  (t.fault.code = .stackOverflow → t.stepResult = .fault (.stackOverflow t.fault.pc)) ∧
  (t.fault.code = .stackUnderflow → t.stepResult = .fault (.stackUnderflow t.fault.pc))

/-- The condition as a flag value. -/
def flag (p : Prop) [Decidable p] : Byte := if p then 1 else 0

/-- A register as the second step of a flagged instruction reads it: VF already holds the flag (spec/42_alu.md R190). -/
def afterFlag (s : State) (f : Byte) (k : RegIx) : Byte := if k = VF then f else s.reg k

/-- The effective bit of a cell: set, and not pending clear (spec/43_sprite_draw.md R204). -/
def effective (s : State) (x : Fin 64) (y : Fin 32) : Bool := s.fb.cell x y && !s.pend.cell x y

/-- Bit number `bit` of sprite row `row`, the most significant first. -/
def spriteBit (s : State) (row bit : Nat) : Bool := (s.readByte (s.i.toNat + row)).getLsbD (7 - bit)

/-- Pixel `bit` of row `row` of a sprite of n rows with its origin at (V[x], V[y]) falls on the cell, wrapping. -/
def PixelAt (s : State) (x y : RegIx) (n : Nibble) (row bit : Nat) (cx : Fin 64) (cy : Fin 32) : Prop :=
  row < n.toNat ∧ bit < 8 ∧ cx.val = ((s.reg x).toNat + bit) % 64 ∧ cy.val = ((s.reg y).toNat + row) % 32

/-- The two states agree but for pending marks over clear cells. -/
def SameButDeadMarks (s t : State) : Prop :=
  t = { s with pend := t.pend } ∧ ∀ x y, s.fb.cell x y = true → t.pend.cell x y = s.pend.cell x y

end Sys2Proof.Claim

open Sys2Proof Sys2Proof.Machine Sys2Proof.Claim

/-! ## Encoding -/

/-- Words of spec/95_test_vectors.md section 2.1, one family each, decode as that table says. -/
def Obligations.SampleWordsDecode : Prop :=
  decodeWord 0x00E0 = .cls 0 ∧ decodeWord 0x0FEE = .ret 0xF ∧ decodeWord 0x0123 = .rsv0 1 0x23 ∧
  decodeWord 0x5127 = .seReg 1 2 7 ∧ decodeWord 0x6A42 = .ldImm 0xA 0x42 ∧ decodeWord 0x81F6 = .shr 1 0xF ∧
  decodeWord 0x812F = .rsv8 1 2 0xF ∧ decodeWord 0xB234 = .jpV0 0x234 ∧ decodeWord 0xD7A5 = .drw 7 0xA 5 ∧
  decodeWord 0xE19E = .skp 1 ∧ decodeWord 0xE19F = .rsvE 1 0x9F ∧ decodeWord 0xF11E = .addI 1 ∧ decodeWord 0xF175 = .nopF 1 0x75

/-- The decoder and the encoder are inverse: every well-formed instruction comes back from its word, whatever its operands and ignored
nibbles, and every word is the word of the well-formed instruction it decodes to. -/
def Obligations.DecodeEncodeInverse : Prop :=
  (∀ i : Instr, i.wellFormed = true → decodeWord (encode i) = i) ∧
  ∀ op : Word, (decodeWord op).wellFormed = true ∧ encode (decodeWord op) = op

/-- Every word names by the decoder the first row of the opcode table that matches it, and at most one of the 34 instruction rows matches
it (R120, which the spec marks as derived). -/
def Obligations.DecoderFollowsOpcodeTable : Prop :=
  ∀ op : Word, (opcodeTable.find? (·.selects op)).map OpcodeRow.name = some (decodeWord op).mnemonic ∧
    (opcodeRows.filter (·.selects op)).length ≤ 1

/-! ## The step -/

/-- A STEP runs the instruction that the bytes at PC and PC + 1 decode to, with PC already past it. -/
def Obligations.StepRunsDecodedInstruction : Prop :=
  ∀ (s u : State) (i : Instr), ComesNext s .step u → s.fault.code = .none → s.pc.toNat ≤ 0xFFE →
    decode [s.readByte s.pc.toNat, s.readByte (s.pc.toNat + 1)] = .ok (i, []) →
    step s = exec i { u with pc := s.pc + 2 }

/-- A STEP that cannot fetch two bytes raises OutOfBounds: PC is not advanced, the address reported is the first byte above 0xFFF, and
STEP returns the fault (R113, R251, R255; the checks are the spec's decision D4, the latch D2: assumption log 15). -/
def Obligations.FetchOutOfBounds : Prop :=
  ∀ s u : State, ComesNext s .step u → s.fault.code = .none → 0xFFE < s.pc.toNat →
    ∃ (addr : Word) (t : State), addr.toNat = max s.pc.toNat 0x1000 ∧ step s = .next t ∧
      t = { u with fault := ⟨.outOfBounds, s.pc, addr⟩ } ∧ t.stepResult = .fault (.outOfBounds s.pc addr)

/-- A STEP of a halted Machine changes no state, and what it returns is the Fault with the latch's code, pc and addr (R256, decision D2:
assumption log 15). UnknownOpcode, which is never latched (R259; StepKeepsInvariant), has no returned value. -/
def Obligations.HaltedStepChangesNothing : Prop :=
  ∀ s u : State, ComesNext s .step u → s.fault.code ≠ .none → step s = .next u ∧ u.fault = s.fault ∧ ReturnsLatch u

/-- In every state exactly one operation comes next, and it has a next state, whatever the word, the address and the data: the spec
leaves nothing undefined (spec/93_implementation_defined.md U12). That a STEP which faults or is halted also answers a next state, with the
fault in the latch, is the model's choice (assumption log 7), and so is the scheduler that chooses where none waits (assumption log 2). No
operation changes the machine's font. -/
def Obligations.EveryStepHasNext : Prop :=
  ∀ s : State, ∃ op u t, ComesNext s op u ∧ (∀ op' u', ComesNext s op' u' → op' = op ∧ u' = u) ∧ step s = .next t ∧ t.font = s.font

/-- The reset state meets the invariant (the canonical form of memory is the model's choice, assumption log 19; the empty latch is the
spec's decision D2, assumption logs 8 and 15). -/
def Obligations.ResetMeetsInvariant : Prop := State.reset.Inv

/-- Every step keeps the invariant: canonical memory within the address space, and a fault latch that is empty, or holds a fault that
can be raised, with the address of the instruction PC stands at. The canonical form is the model's choice (assumption log 19); the latch's
clauses are the spec's decisions D2, D3 and D5 (assumption log 15). -/
def Obligations.StepKeepsInvariant : Prop := ∀ s t : State, s.Inv → step s = .next t → t.Inv

/-- Faults are precise: a step that latches a fault changes nothing but the latch, which names the address PC held; and STEP returns the
Fault with the latch's code, pc and addr, or Ok where none is latched (R254, R255; decisions D2 and D5: assumption log 15). -/
def Obligations.FaultsArePrecise : Prop :=
  ∀ (s u t : State) (op : Operation), s.fault.code = .none → ComesNext s op u → step s = .next t →
    ReturnsLatch t ∧ t.fault.code ≠ .unknownOpcode ∧
    (t.fault.code ≠ .none → op = .step ∧ t = { u with fault := ⟨t.fault.code, s.pc, t.fault.addr⟩ })

/-- Which instruction raises which fault, and exactly when: the rows of R250 and R251; UnknownOpcode never (R259; decisions D3 to D5). -/
def Obligations.FaultCauses : Prop :=
  ∀ (i : Instr) (s t : State), s.fault.code = .none → exec i s = .next t →
    (t.fault.code = .outOfBounds ↔
      (∃ x y n, i = .drw x y n ∧ 0 < n.toNat ∧ 0xFFF < s.i.toNat + n.toNat - 1) ∨ (∃ x, i = .storeBcd x ∧ 0xFFF < s.i.toNat + 2) ∨
      (∃ x : RegIx, i = .storeRegs x ∧ 0xFFF < s.i.toNat + x.val) ∨ ∃ x : RegIx, i = .loadRegs x ∧ 0xFFF < s.i.toNat + x.val) ∧
    (t.fault.code = .stackOverflow ↔ ∃ nnn, i = .call nnn ∧ s.sp.val = 16) ∧
    (t.fault.code = .stackUnderflow ↔ ∃ ign, i = .ret ign ∧ s.sp.val = 0) ∧
    t.fault.code ≠ .unknownOpcode

/-- Only RESET clears a latched fault; until then the halted Machine keeps its registers, stack and grids, whatever else the host does
(R256, R258; decision D2: assumption log 15). -/
def Obligations.OnlyResetClearsFault : Prop :=
  ∀ s t : State, s.fault.code ≠ .none → step s = .next t → (∀ u, ¬ComesNext s .reset u) →
    t.fault = s.fault ∧ t.v = s.v ∧ t.i = s.i ∧ t.pc = s.pc ∧ t.stack = s.stack ∧ t.sp = s.sp ∧ t.fb = s.fb ∧ t.pend = s.pend

/-! ## The other operations -/

/-- TICK (R268): the delay timer goes down by one and stops at 0; a raised redraw flag is cleared and the framebuffer emitted. -/
def Obligations.TickEffect : Prop :=
  ∀ s u : State, ComesNext s .tick u →
    ∃ t, step s = .next t ∧ t.dt.toNat = s.dt.toNat - 1 ∧ t.rd = false ∧
      (s.rd = true → t.outputs = s.outputs ++ [.frame s.fb]) ∧ (s.rd = false → t.outputs = s.outputs) ∧
      KeptBut [.dt, .rd, .outputs] u t

/-- n TICKs with nothing between them take the timer down by n, not below 0, and emit at most one frame (R269, derived in the spec): n
TICKs that wait in the schedule, and the first n of TICKs without end. -/
def Obligations.TicksCountDownAndEmitOnce : Prop :=
  ∀ (n : Nat) (s : State) (rest : List Operation),
    s.schedule = List.replicate n .tick ++ rest ∨ s.schedule = [] ∧ rest = [] ∧ s.scheduler = .round [.tick] →
    ∃ t : State, Sys2Proof.core.run n s = .next t ∧ t.dt.toNat = s.dt.toNat - n ∧ t.schedule = rest ∧
      t.outputs = s.outputs ++ (if n ≠ 0 ∧ s.rd = true then [.frame s.fb] else []) ∧
      KeptBut [.dt, .rd, .schedule, .outputs] s t

/-- KEY_DOWN(c) puts key c in the pressed-key set and KEY_UP(c) takes it out; no other key and nothing else changes (R270; that both are
idempotent is decision D32). -/
def Obligations.KeyOperations : Prop :=
  ∀ (s u : State) (c : Nibble),
    (ComesNext s (.keyDown c) u → ∃ t, step s = .next t ∧ KeptBut [.keys] u t ∧
      ∀ k, t.keys.getLsbD k = (decide (k = c.toNat) || s.keys.getLsbD k)) ∧
    (ComesNext s (.keyUp c) u → ∃ t, step s = .next t ∧ KeptBut [.keys] u t ∧
      ∀ k, t.keys.getLsbD k = (decide (k ≠ c.toNat) && s.keys.getLsbD k))

/-- LOAD (R303, decision D7): an image of at most 3584 bytes goes to 0x200 upward and nothing else changes; a larger one is refused whole. -/
def Obligations.LoadEffect : Prop :=
  ∀ (s u : State) (bytes : List Byte), ComesNext s (.load bytes) u →
    (bytes.length ≤ 3584 → loadResult bytes = .ok ∧ ∃ t, step s = .next t ∧ KeptBut [.memory] u t ∧
      (∀ k (h : k < bytes.length), t.readByte (0x200 + k) = bytes[k]) ∧ MemoryKeptOutside 0x200 bytes.length s t) ∧
    (3584 < bytes.length → loadResult bytes = .errOutOfBounds ∧ step s = .next u)

/-- RESET puts every element of the Machine at its reset value, memory at its machine's font and zeros, and clears the fault latch, from
any state and for every font (R300; that RESET is construction is decision D24, assumption log 16; the zeros that the source does not give
are D22 and D2, assumption log 8). The stack's entries, unspecified there, are not claimed. The font, and what is to come, emitted or drawn,
stay (the model's choices, assumption logs 3 and 5). -/
def Obligations.ResetOperation : Prop :=
  ∀ s u : State, ComesNext s .reset u →
    ∃ t, step s = .next t ∧
      KeptBut [.stack, .memory, .font, .schedule, .scheduler, .outputs, .draws] State.reset t ∧
      (∀ a (_ : a ≤ 0xFFF), t.readByte a = if h : a < 80 then s.font[a] else 0) ∧
      t.font = u.font ∧ t.schedule = u.schedule ∧ t.scheduler = u.scheduler ∧ t.outputs = u.outputs ∧ t.draws = u.draws

/-- The state after RESET, the rows of R45's table (I, SP, DT, the grids, RD, KEYS, FAULT and memory above the font are the spec's
decisions D2 and D22, assumption log 8; the stack's entries, unspecified there, are not claimed). The font is the spec's default table
(presumed, decision D23, assumption log 5). That an address above 0xFFF, of which R45 and R82 say nothing, reads 0 is the model's choice
(assumption log 19). -/
def Obligations.ResetState : Prop :=
  (∀ k, State.reset.reg k = 0) ∧ State.reset.pc = 0x200 ∧ State.reset.i = 0 ∧ State.reset.sp = 0 ∧ State.reset.dt = 0 ∧
  (∀ x y, State.reset.fb.cell x y = false ∧ State.reset.pend.cell x y = false) ∧ State.reset.rd = false ∧ State.reset.keys = 0 ∧
  State.reset.fault = ⟨.none, 0, 0⟩ ∧ State.reset.font = defaultFont ∧
  ∀ a, State.reset.readByte a = if h : a < 80 then defaultFont[a] else 0

/-! ## Control flow -/

/-- CLS (R142): every cell of F is cleared; P and RD stay (decision D17). -/
def Obligations.ClsClearsFramebuffer : Prop :=
  Encodes 0xF0FF 0x00E0 (fun op => .cls (nibbleX op)) ∧
  ∀ ign s, ∃ t, exec (.cls ign) s = .next t ∧ (∀ x y, t.fb.cell x y = false) ∧ KeptBut [.fb] s t

/-- RET (R143): the newest stack entry goes to PC and SP goes down by one; with no entry, StackUnderflow is latched and nothing else
changes (R253; the latch is decision D2). -/
def Obligations.RetPopsOrUnderflows : Prop :=
  Encodes 0xF0FF 0x00EE (fun op => .ret (nibbleX op)) ∧
  (∀ ign s (h : 0 < s.sp.val), ∃ t, exec (.ret ign) s = .next t ∧ t.sp.val = s.sp.val - 1 ∧ t.pc = s.stack[s.sp.val - 1] ∧
    KeptBut [.pc, .sp] s t) ∧
  ∀ ign s, s.sp.val = 0 → exec (.ret ign) s = .next (faulted s .stackUnderflow 0)

/-- JP (R144): PC takes the 12-bit target, zero-extended, and nothing else changes. -/
def Obligations.JpSetsPc : Prop :=
  Encodes 0xF000 0x1000 (fun op => .jp (fieldNNN op)) ∧
  ∀ nnn s, ∃ t, exec (.jp nnn) s = .next t ∧ t.pc.toNat = nnn.toNat ∧ KeptBut [.pc] s t

/-- CALL (R145): the advanced PC is pushed, SP goes up by one and PC takes the target; with 16 entries in use, StackOverflow is latched
and nothing else changes (R252; the latch is decision D2). -/
def Obligations.CallPushesOrOverflows : Prop :=
  Encodes 0xF000 0x2000 (fun op => .call (fieldNNN op)) ∧
  (∀ nnn s, s.sp.val < 16 → ∃ t, exec (.call nnn) s = .next t ∧ t.pc.toNat = nnn.toNat ∧ t.sp.val = s.sp.val + 1 ∧
    (∀ k : Fin 16, t.stack[k] = if k.val = s.sp.val then s.pc else s.stack[k]) ∧ KeptBut [.pc, .sp, .stack] s t) ∧
  ∀ nnn s, s.sp.val = 16 → exec (.call nnn) s = .next (faulted s .stackOverflow 0)

/-- A return comes back to the instruction after the call, with the stack as deep as before (R146, derived in the spec). -/
def Obligations.CallThenRetReturns : Prop :=
  ∀ nnn ign s, s.sp.val < 16 → ∃ t, exec (.call nnn) s = .next t ∧
    ∀ t' : State, t'.sp = t.sp → t'.stack = t.stack →
      ∃ u, exec (.ret ign) t' = .next u ∧ u.pc = s.pc ∧ u.sp = s.sp ∧ KeptBut [.pc, .sp] t' u

/-- JP V0 (R147): PC takes NNN + V0, not masked to 12 bits (decision D11), and nothing else changes. -/
def Obligations.JpV0AddsOffset : Prop :=
  Encodes 0xF000 0xB000 (fun op => .jpV0 (fieldNNN op)) ∧
  ∀ nnn s, ∃ t, exec (.jpV0 nnn) s = .next t ∧ t.pc.toNat = nnn.toNat + (s.reg 0).toNat ∧ KeptBut [.pc] s t

/-- SE Vx, nn (R148): PC moves past one more instruction exactly when Vx equals the immediate, and nothing else changes. -/
def Obligations.SkipIfEqualImmediate : Prop :=
  Encodes 0xF000 0x3000 (fun op => .seImm (fieldX op) (fieldNN op)) ∧
  ∀ x nn, Skips (.seImm x nn) fun s => s.reg x = nn

/-- SNE Vx, nn skips when they differ, SE Vx, Vy when they are equal, SNE Vx, Vy when they differ (R149 to R151; the polarities are
decision D28, the ignored nibble D9); nothing but PC changes. -/
def Obligations.SkipsByPolarity : Prop :=
  Encodes 0xF000 0x4000 (fun op => .sneImm (fieldX op) (fieldNN op)) ∧
  Encodes 0xF000 0x5000 (fun op => .seReg (fieldX op) (fieldY op) (fieldN op)) ∧
  Encodes 0xF000 0x9000 (fun op => .sneReg (fieldX op) (fieldY op) (fieldN op)) ∧
  (∀ x nn, Skips (.sneImm x nn) fun s => s.reg x ≠ nn) ∧
  (∀ x y ign, Skips (.seReg x y ign) fun s => s.reg x = s.reg y) ∧
  ∀ x y ign, Skips (.sneReg x y ign) fun s => s.reg x ≠ s.reg y

/-- SKP skips when the key whose code is Vx is held, SKNP when it is not (R152, R153); the whole byte is the code, and a byte above 0xF is
no held key (decision D19); nothing but PC changes. -/
def Obligations.KeySkips : Prop :=
  Encodes 0xF0FF 0xE09E (fun op => .skp (fieldX op)) ∧ Encodes 0xF0FF 0xE0A1 (fun op => .sknp (fieldX op)) ∧
  (∀ x, Skips (.skp x) fun s => ∃ k : Fin 16, (s.reg x).toNat = k.val ∧ s.keys.getLsbD k.val = true) ∧
  ∀ x, Skips (.sknp x) fun s => ¬∃ k : Fin 16, (s.reg x).toNat = k.val ∧ s.keys.getLsbD k.val = true

/-- The reserved words of groups 0x0, 0x8 and 0xE do nothing beyond the fetch advance (R154, R189, R155: decision D8). -/
def Obligations.ReservedWordsDoNothing : Prop :=
  (∀ op : Word, op &&& 0xF000 = 0x0000 → fieldNN op ≠ 0xE0 → fieldNN op ≠ 0xEE → DoesNothing (decodeWord op)) ∧
  (∀ op : Word, op &&& 0xF000 = 0x8000 → 7 < (fieldN op).toNat → fieldN op ≠ 0xE → DoesNothing (decodeWord op)) ∧
  (∀ op : Word, op &&& 0xF000 = 0xE000 → fieldNN op ≠ 0x9E → fieldNN op ≠ 0xA1 → DoesNothing (decodeWord op)) ∧
  (∀ x nn, DoesNothing (.rsv0 x nn)) ∧ (∀ x y n, DoesNothing (.rsv8 x y n)) ∧ ∀ x nn, DoesNothing (.rsvE x nn)

/-- The unknown sub-codes of group 0xF are silently ignored (R229): their words decode to NOPF, which changes nothing. -/
def Obligations.UnknownSubcodesIgnored : Prop :=
  (∀ op : Word, op &&& 0xF000 = 0xF000 →
    fieldNN op ∉ [0x07#8, 0x0A#8, 0x15#8, 0x18#8, 0x1E#8, 0x29#8, 0x33#8, 0x55#8, 0x65#8] →
    decodeWord op = .nopF (nibbleX op) (fieldNN op)) ∧
  ∀ x nn, DoesNothing (.nopF x nn)

/-- A finished program stays where it is: a STEP of a jump to its own address changes nothing (R309, R144; decision D27). -/
def Obligations.FinishedIsFixedPoint : Prop := ∀ s u : State, s.finished → ComesNext s .step u → step s = .next u

/-! ## Register and memory handlers -/

/-- LD Vx, nn (R170): Vx takes the immediate and nothing else changes. -/
def Obligations.LoadImmediate : Prop :=
  Encodes 0xF000 0x6000 (fun op => .ldImm (fieldX op) (fieldNN op)) ∧ ∀ x nn, WritesReg (.ldImm x nn) x fun _ => nn

/-- ADD Vx, nn (R171): Vx takes the sum modulo 256 and nothing else changes; no flag is written. -/
def Obligations.AddImmediateWraps : Prop :=
  Encodes 0xF000 0x7000 (fun op => .addImm (fieldX op) (fieldNN op)) ∧
  ∀ x nn s, ∃ t, exec (.addImm x nn) s = .next t ∧ (t.reg x).toNat = ((s.reg x).toNat + nn.toNat) % 256 ∧ KeptBut [.reg x] s t

/-- LD I, nnn (R172): I takes the 12-bit address, zero-extended, and nothing else changes. -/
def Obligations.LoadIndex : Prop :=
  Encodes 0xF000 0xA000 (fun op => .ldI (fieldNNN op)) ∧
  ∀ nnn s, ∃ t, exec (.ldI nnn) s = .next t ∧ t.i.toNat = nnn.toNat ∧ KeptBut [.i] s t

/-- RND Vx, nn (R173, R274; decision D20): the free byte of this draw under the mask, one draw consumed; and the same for EVERY byte r the
environment may supply. -/
def Obligations.RandomUnderMask : Prop :=
  Encodes 0xF000 0xC000 (fun op => .rnd (fieldX op) (fieldNN op)) ∧
  (∀ x nn s, exec (.rnd x nn) s = .next (rndWith (Config.freeRandom s.draws) x nn s)) ∧
  ∀ (r : Byte) x nn s, (rndWith r x nn s).draws = s.draws + 1 ∧ KeptBut [.reg x, .draws] s (rndWith r x nn s) ∧
    ∀ j, ((rndWith r x nn s).reg x).getLsbD j = (r.getLsbD j && nn.getLsbD j)

/-! ## Arithmetic and logic -/

/-- LD, OR, AND, XOR Vx, Vy (R180 to R183): Vx takes the result and nothing else changes; no flag is written. -/
def Obligations.UnflaggedAlu : Prop :=
  Encodes 0xF00F 0x8000 (fun op => .ldReg (fieldX op) (fieldY op)) ∧ Encodes 0xF00F 0x8001 (fun op => .orReg (fieldX op) (fieldY op)) ∧
  Encodes 0xF00F 0x8002 (fun op => .andReg (fieldX op) (fieldY op)) ∧
  Encodes 0xF00F 0x8003 (fun op => .xorReg (fieldX op) (fieldY op)) ∧
  (∀ x y, WritesReg (.ldReg x y) x fun s => s.reg y) ∧ (∀ x y, WritesReg (.orReg x y) x fun s => s.reg x ||| s.reg y) ∧
  (∀ x y, WritesReg (.andReg x y) x fun s => s.reg x &&& s.reg y) ∧ ∀ x y, WritesReg (.xorReg x y) x fun s => s.reg x ^^^ s.reg y

/-- ADD Vx, Vy (R184), for every pair of registers: VF takes the carry first, then Vx the sum of the registers as they then are; that
they are read again, which shows only where VF is an operand, is decision D13 (R190). Nothing else changes. -/
def Obligations.AddWithCarry : Prop :=
  Encodes 0xF00F 0x8004 (fun op => .addReg (fieldX op) (fieldY op)) ∧
  ∀ x y s, ∃ t, exec (.addReg x y) s = .next t ∧
    (t.reg x).toNat = ((afterFlag s (flag ((s.reg x).toNat + (s.reg y).toNat > 255)) x).toNat +
      (afterFlag s (flag ((s.reg x).toNat + (s.reg y).toNat > 255)) y).toNat) % 256 ∧
    (x ≠ VF → t.reg VF = flag ((s.reg x).toNat + (s.reg y).toNat > 255)) ∧ KeptBut [.reg x, .reg VF] s t

/-- SUB Vx, Vy (R185), for every pair of registers: VF takes 1 exactly when Vx is strictly greater, then Vx the difference modulo 256 of
the registers as they then are (decision D13 where VF is an operand). Nothing else changes. -/
def Obligations.SubtractStrictFlag : Prop :=
  Encodes 0xF00F 0x8005 (fun op => .subReg (fieldX op) (fieldY op)) ∧
  ∀ x y s, ∃ t, exec (.subReg x y) s = .next t ∧
    (t.reg x).toNat = (256 + (afterFlag s (flag ((s.reg x).toNat > (s.reg y).toNat)) x).toNat -
      (afterFlag s (flag ((s.reg x).toNat > (s.reg y).toNat)) y).toNat) % 256 ∧
    (x ≠ VF → t.reg VF = flag ((s.reg x).toNat > (s.reg y).toNat)) ∧ KeptBut [.reg x, .reg VF] s t

/-- SHR Vx (R186): VF takes bit 0, then Vx is halved in place, whatever Y (decision D13 where X is VF). Nothing else changes. -/
def Obligations.ShiftRight : Prop :=
  Encodes 0xF00F 0x8006 (fun op => .shr (fieldX op) (nibbleY op)) ∧
  ∀ x ign s, ∃ t, exec (.shr x ign) s = .next t ∧
    (t.reg x).toNat = (afterFlag s (flag ((s.reg x).toNat % 2 = 1)) x).toNat / 2 ∧
    (x ≠ VF → t.reg VF = flag ((s.reg x).toNat % 2 = 1)) ∧ KeptBut [.reg x, .reg VF] s t

/-- SUBN Vx, Vy (R187), for every pair of registers: VF takes 1 exactly when Vy is strictly greater, then Vy takes Vy minus Vx modulo 256,
the registers as they then are (decision D13 where VF is an operand). Nothing else changes. -/
def Obligations.ReverseSubtractIntoY : Prop :=
  Encodes 0xF00F 0x8007 (fun op => .subnReg (fieldX op) (fieldY op)) ∧
  ∀ x y s, ∃ t, exec (.subnReg x y) s = .next t ∧
    (t.reg y).toNat = (256 + (afterFlag s (flag ((s.reg y).toNat > (s.reg x).toNat)) y).toNat -
      (afterFlag s (flag ((s.reg y).toNat > (s.reg x).toNat)) x).toNat) % 256 ∧
    (y ≠ VF → t.reg VF = flag ((s.reg y).toNat > (s.reg x).toNat)) ∧ KeptBut [.reg y, .reg VF] s t

/-- SHL Vx (R188): VF takes bit 7, then Vx is doubled modulo 256 in place, whatever Y (decision D13 where X is VF). Nothing else
changes. -/
def Obligations.ShiftLeft : Prop :=
  Encodes 0xF00F 0x800E (fun op => .shl (fieldX op) (nibbleY op)) ∧
  ∀ x ign s, ∃ t, exec (.shl x ign) s = .next t ∧
    (t.reg x).toNat = (afterFlag s (flag ((s.reg x).toNat ≥ 128)) x).toNat * 2 % 256 ∧
    (x ≠ VF → t.reg VF = flag ((s.reg x).toNat ≥ 128)) ∧ KeptBut [.reg x, .reg VF] s t

/-- The table of R192 (derived in the spec, decision D13): what the flagged instructions leave when an operand is VF and when none is, as
functions of the operands a = V[X] and b = V[Y] before the instruction. -/
def Obligations.FlaggedResultTable : Prop :=
  ∀ (x y : RegIx) (ign : Nibble) (s : State) (a b : Byte), s.reg x = a → s.reg y = b →
    (∃ t, exec (.addReg x y) s = .next t ∧
      (x ≠ VF → y ≠ VF → t.reg x = a + b ∧ t.reg VF = flag (a.toNat + b.toNat > 255)) ∧
      (x = VF → y ≠ VF → t.reg VF = flag (a.toNat + b.toNat > 255) + b) ∧
      (x ≠ VF → y = VF → t.reg x = a + flag (a.toNat + b.toNat > 255) ∧ t.reg VF = flag (a.toNat + b.toNat > 255)) ∧
      (x = VF → y = VF → t.reg VF = 2 * flag (2 * a.toNat > 255))) ∧
    (∃ t, exec (.subReg x y) s = .next t ∧
      (x ≠ VF → y ≠ VF → t.reg x = a - b ∧ t.reg VF = flag (a.toNat > b.toNat)) ∧
      (x = VF → y ≠ VF → t.reg VF = flag (a.toNat > b.toNat) - b) ∧
      (x ≠ VF → y = VF → t.reg x = a - flag (a.toNat > b.toNat) ∧ t.reg VF = flag (a.toNat > b.toNat)) ∧
      (x = VF → y = VF → t.reg VF = 0)) ∧
    (∃ t, exec (.shr x ign) s = .next t ∧
      (x ≠ VF → t.reg x = a / 2 ∧ t.reg VF = flag (a.toNat % 2 = 1)) ∧ (x = VF → t.reg VF = 0)) ∧
    (∃ t, exec (.subnReg x y) s = .next t ∧
      (x ≠ VF → y ≠ VF → t.reg y = b - a ∧ t.reg VF = flag (b.toNat > a.toNat)) ∧
      (x = VF → y ≠ VF → t.reg y = b - flag (b.toNat > a.toNat) ∧ t.reg VF = flag (b.toNat > a.toNat)) ∧
      (x ≠ VF → y = VF → t.reg VF = flag (b.toNat > a.toNat) - a) ∧
      (x = VF → y = VF → t.reg VF = 0)) ∧
    ∃ t, exec (.shl x ign) s = .next t ∧
      (x ≠ VF → t.reg x = 2 * a ∧ t.reg VF = flag (a.toNat ≥ 128)) ∧ (x = VF → t.reg VF = 2 * flag (a.toNat ≥ 128))

/-! ## Sprite drawing -/

/-- DRW (R200, R205, R210). When the row bytes lie in memory: pending clears are committed; a cell under a pixel is set when it was
effectively set or the sprite bit is 1, and marked pending when the exclusive or is 0; every other cell takes its effective value with no
mark; VF is 1 exactly on a collision; RD is raised by a commit that hits a set cell and by a sprite bit 1; nothing else changes. When a row
byte lies outside memory, OutOfBounds and nothing else. The operands latched before VF is written, RD raised by every sprite bit 1 and the
mark on every zero result are the spec's decisions D14, D15 and D16 (assumption log 12); the bounds fault is D4 and D5 (assumption log 15). -/
def Obligations.DrawSprite : Prop :=
  Encodes 0xF000 0xD000 (fun op => .drw (fieldX op) (fieldY op) (fieldN op)) ∧
  (∀ x y n s, n.toNat = 0 ∨ s.i.toNat + n.toNat - 1 ≤ 0xFFF → ∃ t, exec (.drw x y n) s = .next t ∧
    (∀ row bit cx cy, PixelAt s x y n row bit cx cy →
      t.fb.cell cx cy = (effective s cx cy || spriteBit s row bit) ∧
      t.pend.cell cx cy = (effective s cx cy == spriteBit s row bit)) ∧
    (∀ cx cy, (¬∃ row bit, PixelAt s x y n row bit cx cy) → t.fb.cell cx cy = effective s cx cy ∧ t.pend.cell cx cy = false) ∧
    ((∃ row bit cx cy, PixelAt s x y n row bit cx cy ∧ effective s cx cy = true ∧ spriteBit s row bit = true) → t.reg VF = 1) ∧
    ((¬∃ row bit cx cy, PixelAt s x y n row bit cx cy ∧ effective s cx cy = true ∧ spriteBit s row bit = true) → t.reg VF = 0) ∧
    (t.rd = true ↔ s.rd = true ∨ (∃ cx cy, s.fb.cell cx cy = true ∧ s.pend.cell cx cy = true) ∨
      ∃ row bit, row < n.toNat ∧ bit < 8 ∧ spriteBit s row bit = true) ∧
    KeptBut [.reg VF, .fb, .pend, .rd] s t) ∧
  ∀ x y n s, 0 < n.toNat → 0xFFF < s.i.toNat + n.toNat - 1 → RaisesOutOfBounds (.drw x y n) s s.i

/-- Drawing the same sprite twice at the same place gives every cell its effective value back (R203, R204, R211; derived). -/
def Obligations.DrawTwiceRestoresEffectiveCells : Prop :=
  ∀ x y n s, x ≠ VF → y ≠ VF → n.toNat = 0 ∨ s.i.toNat + n.toNat - 1 ≤ 0xFFF →
    ∃ t u, exec (.drw x y n) s = .next t ∧ exec (.drw x y n) t = .next u ∧ ∀ cx cy, effective u cx cy = effective s cx cy

/-- A cell that a sprite erases stays set until the next DRW, wherever that draws; then it is clear, unless that sprite sets it again (R203,
decision D16). -/
def Obligations.ErasedCellClearsAtNextDraw : Prop :=
  ∀ x y n s row bit cx cy, n.toNat = 0 ∨ s.i.toNat + n.toNat - 1 ≤ 0xFFF → PixelAt s x y n row bit cx cy →
    effective s cx cy = true → spriteBit s row bit = true →
    ∃ t, exec (.drw x y n) s = .next t ∧ t.fb.cell cx cy = true ∧ t.reg VF = 1 ∧
      ∀ (t' : State) x' y' n', t'.fb = t.fb → t'.pend = t.pend → n'.toNat = 0 ∨ t'.i.toNat + n'.toNat - 1 ≤ 0xFFF →
        ∃ u, exec (.drw x' y' n') t' = .next u ∧
          ((¬∃ row' bit', PixelAt t' x' y' n' row' bit' cx cy ∧ spriteBit t' row' bit' = true) → u.fb.cell cx cy = false)

/-- A pending mark over a clear cell cannot be observed: two states that differ only in such marks take, on every operation, steps to two
such states, with the same registers, framebuffer, redraw flag, memory, fault latch and output events (R206, derived in the spec). The
environment is the same on both sides: both states have the same operations to come and the same count of draws, so a CXNN is supplied
the same byte in both (the model's choices, assumption logs 1 and 2). -/
def Obligations.DeadMarksUnobservable : Prop :=
  ∀ s t s' : State, SameButDeadMarks s t → step s = .next s' → ∃ t', step t = .next t' ∧ SameButDeadMarks s' t'

/-! ## Key, timer and miscellaneous -/

/-- LD Vx, DT (R220): Vx takes the delay timer and nothing else changes. -/
def Obligations.ReadDelayTimer : Prop :=
  Encodes 0xF0FF 0xF007 (fun op => .ldDt (fieldX op)) ∧ ∀ x, WritesReg (.ldDt x) x fun s => s.dt

/-- LD Vx, K with a key held (R221): Vx takes the lowest held code (decision D18) and nothing else changes. -/
def Obligations.WaitForKeyTakesLowest : Prop :=
  Encodes 0xF0FF 0xF00A (fun op => .ldKey (fieldX op)) ∧
  ∀ x s (k : Fin 16), s.keys.getLsbD k.val = true → (∀ j < k.val, s.keys.getLsbD j = false) →
    ∃ t, exec (.ldKey x) s = .next t ∧ (t.reg x).toNat = k.val ∧ KeptBut [.reg x] s t

/-- LD Vx, K with no key held (R221): a busy poll. PC goes back by 2, and a whole STEP leaves the whole state as it was. -/
def Obligations.WaitForKeyPolls : Prop :=
  (∀ x s, s.keys = 0 → exec (.ldKey x) s = .next { s with pc := s.pc - 2 }) ∧
  ∀ x s u, ComesNext s .step u → s.fault.code = .none → s.pc.toNat ≤ 0xFFE → s.keys = 0 → decodeWord s.fetchWord = .ldKey x →
    step s = .next u

/-- LD DT, Vx (R222): the delay timer takes Vx and nothing else changes. -/
def Obligations.SetDelayTimer : Prop :=
  Encodes 0xF0FF 0xF015 (fun op => .setDt (fieldX op)) ∧
  ∀ x s, ∃ t, exec (.setDt x) s = .next t ∧ t.dt = s.reg x ∧ KeptBut [.dt] s t

/-- LD ST, Vx (R223, R273; decision D21): one sound event of Vx units follows the events before it, and no state of the Machine changes. -/
def Obligations.SoundTrigger : Prop :=
  Encodes 0xF0FF 0xF018 (fun op => .setSound (fieldX op)) ∧
  ∀ x s, ∃ t, exec (.setSound x) s = .next t ∧ t.outputs = s.outputs ++ [.sound (s.reg x)] ∧ KeptBut [.outputs] s t

/-- ADD I, Vx (R224): I takes the sum modulo 65536, not masked to 12 bits (decision D10), and nothing else changes; no flag is written. -/
def Obligations.AddToIndexWraps : Prop :=
  Encodes 0xF0FF 0xF01E (fun op => .addI (fieldX op)) ∧
  ∀ x s, ∃ t, exec (.addI x) s = .next t ∧ t.i.toNat = (s.i.toNat + (s.reg x).toNat) % 65536 ∧ KeptBut [.i] s t

/-- LD F, Vx (R225): I takes five times the whole byte Vx and nothing else changes. -/
def Obligations.PointAtGlyph : Prop :=
  Encodes 0xF0FF 0xF029 (fun op => .ldFont (fieldX op)) ∧
  ∀ x s, ∃ t, exec (.ldFont x) s = .next t ∧ t.i.toNat = (s.reg x).toNat * 5 ∧ KeptBut [.i] s t

/-- LD B, Vx (R226): when I + 2 is at most 0xFFF, the hundreds, tens and ones of Vx go to I, I + 1, I + 2 and nothing else changes;
otherwise OutOfBounds, and nothing is stored (the bounds rule is decision D4, D5). -/
def Obligations.StoreBcd : Prop :=
  Encodes 0xF0FF 0xF033 (fun op => .storeBcd (fieldX op)) ∧
  (∀ x s, s.i.toNat + 2 ≤ 0xFFF → ∃ t, exec (.storeBcd x) s = .next t ∧
    (t.readByte s.i.toNat).toNat = (s.reg x).toNat / 100 ∧ (t.readByte (s.i.toNat + 1)).toNat = (s.reg x).toNat / 10 % 10 ∧
    (t.readByte (s.i.toNat + 2)).toNat = (s.reg x).toNat % 10 ∧ MemoryKeptOutside s.i.toNat 3 s t ∧ KeptBut [.memory] s t) ∧
  ∀ x s, 0xFFF < s.i.toNat + 2 → RaisesOutOfBounds (.storeBcd x) s s.i

/-- LD [I], Vx (R227): when I + X is at most 0xFFF, V0 to Vx go to I upward and nothing else changes (I unchanged is decision D12);
otherwise OutOfBounds, and nothing is stored (the bounds rule is decision D4, D5). -/
def Obligations.StoreRegisters : Prop :=
  Encodes 0xF0FF 0xF055 (fun op => .storeRegs (fieldX op)) ∧
  (∀ (x : RegIx) s, s.i.toNat + x.val ≤ 0xFFF → ∃ t, exec (.storeRegs x) s = .next t ∧
    (∀ k : RegIx, k ≤ x → t.readByte (s.i.toNat + k.val) = s.reg k) ∧ MemoryKeptOutside s.i.toNat (x.val + 1) s t ∧
    KeptBut [.memory] s t) ∧
  ∀ (x : RegIx) s, 0xFFF < s.i.toNat + x.val → RaisesOutOfBounds (.storeRegs x) s s.i

/-- LD Vx, [I] (R228): when I + X is at most 0xFFF, V0 to Vx take the bytes from I upward and nothing else changes (I unchanged is
decision D12); otherwise OutOfBounds, and no register changes (the bounds rule is decision D4, D5). -/
def Obligations.LoadRegisters : Prop :=
  Encodes 0xF0FF 0xF065 (fun op => .loadRegs (fieldX op)) ∧
  (∀ (x : RegIx) s, s.i.toNat + x.val ≤ 0xFFF → ∃ t, exec (.loadRegs x) s = .next t ∧
    (∀ k : RegIx, k ≤ x → t.reg k = s.readByte (s.i.toNat + k.val)) ∧ (∀ k : RegIx, x < k → t.reg k = s.reg k) ∧
    ∀ e, (∀ k, e ≠ .reg k) → Kept s t e) ∧
  ∀ (x : RegIx) s, 0xFFF < s.i.toNat + x.val → RaisesOutOfBounds (.loadRegs x) s s.i

/-- Registers saved with FX55 come back with FX65, whatever the registers held in between (R227, R228; derived). FX65 reads where FX55
stored because FX55 leaves I unchanged, which is the spec's decision D12 (assumption log 14). -/
def Obligations.SaveRestoreRegisters : Prop :=
  ∀ (x : RegIx) (s : State) (between : Vector Byte 16), s.i.toNat + x.val ≤ 0xFFF →
    ∃ t u, exec (.storeRegs x) s = .next t ∧ exec (.loadRegs x) { t with v := between } = .next u ∧
      ∀ k : RegIx, u.reg k = if k ≤ x then s.reg k else between[k]

/-! ## Whole-machine rules -/

/-- Who writes the index register, the delay timer and the pressed-key set: an instruction that changes one of them is one that R32, R35
and R39 name (that FX55 and FX65 leave I is decision D12, assumption log 14). In the model's own fields (assumption logs 1, 2, 3 and 5): only
CXNN, which R42 gives its random byte, advances the count of draws; only FX18, which R42 gives its sound event, adds an output; and no
instruction changes the font, the schedule or the scheduler. -/
def Obligations.WhoWritesIndexTimerPorts : Prop :=
  ∀ (i : Instr) (s t : State), exec i s = .next t →
    (t.i ≠ s.i → (∃ nnn, i = .ldI nnn) ∨ (∃ x, i = .addI x) ∨ ∃ x, i = .ldFont x) ∧
    (t.dt ≠ s.dt → ∃ x, i = .setDt x) ∧ t.keys = s.keys ∧ t.font = s.font ∧ t.schedule = s.schedule ∧ t.scheduler = s.scheduler ∧
    (t.draws ≠ s.draws → ∃ x nn, i = .rnd x nn) ∧ (t.outputs ≠ s.outputs → ∃ x, i = .setSound x)

/-- Who writes memory, the grids, RD and the stack: an instruction that changes one of them is one that R36 to R38, R80 and R34 name; none
clears RD. That CLS changes neither P nor RD is the spec's decision D17 (assumption log 12); that RET leaves the popped entry in the array
follows decision D6 (assumption log 20). -/
def Obligations.WhoWritesMemoryScreenStack : Prop :=
  ∀ (i : Instr) (s t : State), exec i s = .next t →
    (t.mem ≠ s.mem → (∃ x, i = .storeBcd x) ∨ ∃ x, i = .storeRegs x) ∧
    (t.fb ≠ s.fb → (∃ ign, i = .cls ign) ∨ ∃ x y n, i = .drw x y n) ∧
    (t.pend ≠ s.pend ∨ t.rd ≠ s.rd → ∃ x y n, i = .drw x y n) ∧ (s.rd = true → t.rd = true) ∧
    (t.stack ≠ s.stack → ∃ nnn, i = .call nnn) ∧ (t.sp ≠ s.sp → (∃ nnn, i = .call nnn) ∨ ∃ ign, i = .ret ign)

/-- Who writes VF: an instruction that changes it is one of the six flag writers of R31, or names VF as its destination. -/
def Obligations.WhoWritesFlagRegister : Prop :=
  ∀ (i : Instr) (s t : State), exec i s = .next t → t.reg VF ≠ s.reg VF →
    ((∃ x y, i = .addReg x y) ∨ (∃ x y, i = .subReg x y) ∨ (∃ x ign, i = .shr x ign) ∨ (∃ x y, i = .subnReg x y) ∨
      (∃ x ign, i = .shl x ign) ∨ ∃ x y n, i = .drw x y n) ∨
    ((∃ nn, i = .ldImm VF nn) ∨ (∃ nn, i = .addImm VF nn) ∨ (∃ y, i = .ldReg VF y) ∨ (∃ y, i = .orReg VF y) ∨
      (∃ y, i = .andReg VF y) ∨ (∃ y, i = .xorReg VF y) ∨ (∃ nn, i = .rnd VF nn) ∨ i = .ldDt VF ∨ i = .ldKey VF ∨ i = .loadRegs VF)

/-- The canonical form is one: for every font, two memories in it that read alike at every address are the same list. The form is the
model's own choice (assumption log 19); the spec knows only the bytes. -/
def Obligations.CanonicalMemoryIsUnique : Prop :=
  ∀ (font : Font) (m m' : Memory), m.wf font → m'.wf font → (∀ a, m.read font a = m'.read font a) → m = m'
end

