-- ==== Sys2Proof/Laws/State.lean ====
section
/-! SUPPORT. One lemma per field for each update of State, so that no proof unfolds a record update. -/

namespace Sys2Proof.Machine

/-! ## setReg -/

@[simp] theorem State.setReg_v (s : State) (k : RegIx) (b : Byte) : (s.setReg k b).v = s.v.set k.val b := rfl
@[simp] theorem State.setReg_i (s : State) (k : RegIx) (b : Byte) : (s.setReg k b).i = s.i := rfl
@[simp] theorem State.setReg_pc (s : State) (k : RegIx) (b : Byte) : (s.setReg k b).pc = s.pc := rfl
@[simp] theorem State.setReg_stack (s : State) (k : RegIx) (b : Byte) : (s.setReg k b).stack = s.stack := rfl
@[simp] theorem State.setReg_sp (s : State) (k : RegIx) (b : Byte) : (s.setReg k b).sp = s.sp := rfl
@[simp] theorem State.setReg_dt (s : State) (k : RegIx) (b : Byte) : (s.setReg k b).dt = s.dt := rfl
@[simp] theorem State.setReg_fb (s : State) (k : RegIx) (b : Byte) : (s.setReg k b).fb = s.fb := rfl
@[simp] theorem State.setReg_pend (s : State) (k : RegIx) (b : Byte) : (s.setReg k b).pend = s.pend := rfl
@[simp] theorem State.setReg_rd (s : State) (k : RegIx) (b : Byte) : (s.setReg k b).rd = s.rd := rfl
@[simp] theorem State.setReg_keys (s : State) (k : RegIx) (b : Byte) : (s.setReg k b).keys = s.keys := rfl
@[simp] theorem State.setReg_fault (s : State) (k : RegIx) (b : Byte) : (s.setReg k b).fault = s.fault := rfl
@[simp] theorem State.setReg_mem (s : State) (k : RegIx) (b : Byte) : (s.setReg k b).mem = s.mem := rfl
@[simp] theorem State.setReg_font (s : State) (k : RegIx) (b : Byte) : (s.setReg k b).font = s.font := rfl
@[simp] theorem State.setReg_schedule (s : State) (k : RegIx) (b : Byte) : (s.setReg k b).schedule = s.schedule := rfl
@[simp] theorem State.setReg_scheduler (s : State) (k : RegIx) (b : Byte) : (s.setReg k b).scheduler = s.scheduler := rfl
@[simp] theorem State.setReg_outputs (s : State) (k : RegIx) (b : Byte) : (s.setReg k b).outputs = s.outputs := rfl
@[simp] theorem State.setReg_draws (s : State) (k : RegIx) (b : Byte) : (s.setReg k b).draws = s.draws := rfl

/-! ## writeByte -/

@[simp] theorem State.writeByte_v (s : State) (a : Nat) (b : Byte) : (s.writeByte a b).v = s.v := rfl
@[simp] theorem State.writeByte_i (s : State) (a : Nat) (b : Byte) : (s.writeByte a b).i = s.i := rfl
@[simp] theorem State.writeByte_pc (s : State) (a : Nat) (b : Byte) : (s.writeByte a b).pc = s.pc := rfl
@[simp] theorem State.writeByte_stack (s : State) (a : Nat) (b : Byte) : (s.writeByte a b).stack = s.stack := rfl
@[simp] theorem State.writeByte_sp (s : State) (a : Nat) (b : Byte) : (s.writeByte a b).sp = s.sp := rfl
@[simp] theorem State.writeByte_dt (s : State) (a : Nat) (b : Byte) : (s.writeByte a b).dt = s.dt := rfl
@[simp] theorem State.writeByte_fb (s : State) (a : Nat) (b : Byte) : (s.writeByte a b).fb = s.fb := rfl
@[simp] theorem State.writeByte_pend (s : State) (a : Nat) (b : Byte) : (s.writeByte a b).pend = s.pend := rfl
@[simp] theorem State.writeByte_rd (s : State) (a : Nat) (b : Byte) : (s.writeByte a b).rd = s.rd := rfl
@[simp] theorem State.writeByte_keys (s : State) (a : Nat) (b : Byte) : (s.writeByte a b).keys = s.keys := rfl
@[simp] theorem State.writeByte_fault (s : State) (a : Nat) (b : Byte) : (s.writeByte a b).fault = s.fault := rfl
@[simp] theorem State.writeByte_mem (s : State) (a : Nat) (b : Byte) : (s.writeByte a b).mem = s.mem.write s.font a b := rfl
@[simp] theorem State.writeByte_font (s : State) (a : Nat) (b : Byte) : (s.writeByte a b).font = s.font := rfl
@[simp] theorem State.writeByte_schedule (s : State) (a : Nat) (b : Byte) : (s.writeByte a b).schedule = s.schedule := rfl
@[simp] theorem State.writeByte_scheduler (s : State) (a : Nat) (b : Byte) : (s.writeByte a b).scheduler = s.scheduler := rfl
@[simp] theorem State.writeByte_outputs (s : State) (a : Nat) (b : Byte) : (s.writeByte a b).outputs = s.outputs := rfl
@[simp] theorem State.writeByte_draws (s : State) (a : Nat) (b : Byte) : (s.writeByte a b).draws = s.draws := rfl

/-! ## latchFault -/

@[simp] theorem State.latchFault_v (s : State) (c : FaultCode) (p a : Word) : (s.latchFault c p a).v = s.v := rfl
@[simp] theorem State.latchFault_i (s : State) (c : FaultCode) (p a : Word) : (s.latchFault c p a).i = s.i := rfl
@[simp] theorem State.latchFault_pc (s : State) (c : FaultCode) (p a : Word) : (s.latchFault c p a).pc = p := rfl
@[simp] theorem State.latchFault_stack (s : State) (c : FaultCode) (p a : Word) : (s.latchFault c p a).stack = s.stack := rfl
@[simp] theorem State.latchFault_sp (s : State) (c : FaultCode) (p a : Word) : (s.latchFault c p a).sp = s.sp := rfl
@[simp] theorem State.latchFault_dt (s : State) (c : FaultCode) (p a : Word) : (s.latchFault c p a).dt = s.dt := rfl
@[simp] theorem State.latchFault_fb (s : State) (c : FaultCode) (p a : Word) : (s.latchFault c p a).fb = s.fb := rfl
@[simp] theorem State.latchFault_pend (s : State) (c : FaultCode) (p a : Word) : (s.latchFault c p a).pend = s.pend := rfl
@[simp] theorem State.latchFault_rd (s : State) (c : FaultCode) (p a : Word) : (s.latchFault c p a).rd = s.rd := rfl
@[simp] theorem State.latchFault_keys (s : State) (c : FaultCode) (p a : Word) : (s.latchFault c p a).keys = s.keys := rfl
@[simp] theorem State.latchFault_fault (s : State) (c : FaultCode) (p a : Word) : (s.latchFault c p a).fault = ⟨c, p, a⟩ := rfl
@[simp] theorem State.latchFault_mem (s : State) (c : FaultCode) (p a : Word) : (s.latchFault c p a).mem = s.mem := rfl
@[simp] theorem State.latchFault_font (s : State) (c : FaultCode) (p a : Word) : (s.latchFault c p a).font = s.font := rfl
@[simp] theorem State.latchFault_schedule (s : State) (c : FaultCode) (p a : Word) : (s.latchFault c p a).schedule = s.schedule := rfl
@[simp] theorem State.latchFault_scheduler (s : State) (c : FaultCode) (p a : Word) : (s.latchFault c p a).scheduler = s.scheduler := rfl
@[simp] theorem State.latchFault_outputs (s : State) (c : FaultCode) (p a : Word) : (s.latchFault c p a).outputs = s.outputs := rfl
@[simp] theorem State.latchFault_draws (s : State) (c : FaultCode) (p a : Word) : (s.latchFault c p a).draws = s.draws := rfl

/-! ## emit -/

@[simp] theorem State.emit_v (s : State) (e : Output) : (s.emit e).v = s.v := rfl
@[simp] theorem State.emit_i (s : State) (e : Output) : (s.emit e).i = s.i := rfl
@[simp] theorem State.emit_pc (s : State) (e : Output) : (s.emit e).pc = s.pc := rfl
@[simp] theorem State.emit_stack (s : State) (e : Output) : (s.emit e).stack = s.stack := rfl
@[simp] theorem State.emit_sp (s : State) (e : Output) : (s.emit e).sp = s.sp := rfl
@[simp] theorem State.emit_dt (s : State) (e : Output) : (s.emit e).dt = s.dt := rfl
@[simp] theorem State.emit_fb (s : State) (e : Output) : (s.emit e).fb = s.fb := rfl
@[simp] theorem State.emit_pend (s : State) (e : Output) : (s.emit e).pend = s.pend := rfl
@[simp] theorem State.emit_rd (s : State) (e : Output) : (s.emit e).rd = s.rd := rfl
@[simp] theorem State.emit_keys (s : State) (e : Output) : (s.emit e).keys = s.keys := rfl
@[simp] theorem State.emit_fault (s : State) (e : Output) : (s.emit e).fault = s.fault := rfl
@[simp] theorem State.emit_mem (s : State) (e : Output) : (s.emit e).mem = s.mem := rfl
@[simp] theorem State.emit_font (s : State) (e : Output) : (s.emit e).font = s.font := rfl
@[simp] theorem State.emit_schedule (s : State) (e : Output) : (s.emit e).schedule = s.schedule := rfl
@[simp] theorem State.emit_scheduler (s : State) (e : Output) : (s.emit e).scheduler = s.scheduler := rfl
@[simp] theorem State.emit_outputs (s : State) (e : Output) : (s.emit e).outputs = s.outputs ++ [e] := rfl
@[simp] theorem State.emit_draws (s : State) (e : Output) : (s.emit e).draws = s.draws := rfl

/-! ## skipIf -/

@[simp] theorem State.skipIf_v (s : State) (b : Bool) : (s.skipIf b).v = s.v := by cases b <;> rfl
@[simp] theorem State.skipIf_i (s : State) (b : Bool) : (s.skipIf b).i = s.i := by cases b <;> rfl
@[simp] theorem State.skipIf_pc (s : State) (b : Bool) : (s.skipIf b).pc = if b then s.pc + 2 else s.pc := by cases b <;> rfl
@[simp] theorem State.skipIf_stack (s : State) (b : Bool) : (s.skipIf b).stack = s.stack := by cases b <;> rfl
@[simp] theorem State.skipIf_sp (s : State) (b : Bool) : (s.skipIf b).sp = s.sp := by cases b <;> rfl
@[simp] theorem State.skipIf_dt (s : State) (b : Bool) : (s.skipIf b).dt = s.dt := by cases b <;> rfl
@[simp] theorem State.skipIf_fb (s : State) (b : Bool) : (s.skipIf b).fb = s.fb := by cases b <;> rfl
@[simp] theorem State.skipIf_pend (s : State) (b : Bool) : (s.skipIf b).pend = s.pend := by cases b <;> rfl
@[simp] theorem State.skipIf_rd (s : State) (b : Bool) : (s.skipIf b).rd = s.rd := by cases b <;> rfl
@[simp] theorem State.skipIf_keys (s : State) (b : Bool) : (s.skipIf b).keys = s.keys := by cases b <;> rfl
@[simp] theorem State.skipIf_fault (s : State) (b : Bool) : (s.skipIf b).fault = s.fault := by cases b <;> rfl
@[simp] theorem State.skipIf_mem (s : State) (b : Bool) : (s.skipIf b).mem = s.mem := by cases b <;> rfl
@[simp] theorem State.skipIf_font (s : State) (b : Bool) : (s.skipIf b).font = s.font := by cases b <;> rfl
@[simp] theorem State.skipIf_schedule (s : State) (b : Bool) : (s.skipIf b).schedule = s.schedule := by cases b <;> rfl
@[simp] theorem State.skipIf_scheduler (s : State) (b : Bool) : (s.skipIf b).scheduler = s.scheduler := by cases b <;> rfl
@[simp] theorem State.skipIf_outputs (s : State) (b : Bool) : (s.skipIf b).outputs = s.outputs := by cases b <;> rfl
@[simp] theorem State.skipIf_draws (s : State) (b : Bool) : (s.skipIf b).draws = s.draws := by cases b <;> rfl

/-! ## commitClears -/

@[simp] theorem State.commitClears_v (s : State) : (s.commitClears).v = s.v := by simp only [State.commitClears]
@[simp] theorem State.commitClears_i (s : State) : (s.commitClears).i = s.i := by simp only [State.commitClears]
@[simp] theorem State.commitClears_pc (s : State) : (s.commitClears).pc = s.pc := by simp only [State.commitClears]
@[simp] theorem State.commitClears_stack (s : State) : (s.commitClears).stack = s.stack := by simp only [State.commitClears]
@[simp] theorem State.commitClears_sp (s : State) : (s.commitClears).sp = s.sp := by simp only [State.commitClears]
@[simp] theorem State.commitClears_dt (s : State) : (s.commitClears).dt = s.dt := by simp only [State.commitClears]
@[simp] theorem State.commitClears_fb (s : State) :
    (s.commitClears).fb = Grid.ofCells fun x y => s.fb.cell x y && !s.pend.cell x y := by
  simp only [State.commitClears]
@[simp] theorem State.commitClears_pend (s : State) : (s.commitClears).pend = Grid.clear := by simp only [State.commitClears]
@[simp] theorem State.commitClears_rd (s : State) :
    (s.commitClears).rd = (s.rd || anyCell fun x y => s.pend.cell x y && s.fb.cell x y) := by
  simp only [State.commitClears]
@[simp] theorem State.commitClears_keys (s : State) : (s.commitClears).keys = s.keys := by simp only [State.commitClears]
@[simp] theorem State.commitClears_fault (s : State) : (s.commitClears).fault = s.fault := by simp only [State.commitClears]
@[simp] theorem State.commitClears_mem (s : State) : (s.commitClears).mem = s.mem := by simp only [State.commitClears]
@[simp] theorem State.commitClears_font (s : State) : (s.commitClears).font = s.font := by simp only [State.commitClears]
@[simp] theorem State.commitClears_schedule (s : State) : (s.commitClears).schedule = s.schedule := by simp only [State.commitClears]
@[simp] theorem State.commitClears_scheduler (s : State) : (s.commitClears).scheduler = s.scheduler := by simp only [State.commitClears]
@[simp] theorem State.commitClears_outputs (s : State) : (s.commitClears).outputs = s.outputs := by simp only [State.commitClears]
@[simp] theorem State.commitClears_draws (s : State) : (s.commitClears).draws = s.draws := by simp only [State.commitClears]

/-! ## Reading a register after an update -/

theorem State.reg_setReg (s : State) (k : RegIx) (b : Byte) (j : RegIx) : (s.setReg k b).reg j = if j = k then b else s.reg j := by
  simp only [State.reg, State.setReg_v, Vector.getElem_set, Fin.ext_iff, eq_comm (a := k.val)]

@[simp] theorem State.reg_setReg_self (s : State) (k : RegIx) (b : Byte) : (s.setReg k b).reg k = b := by
  rw [State.reg_setReg, if_pos rfl]

theorem State.reg_setReg_other (s : State) {k j : RegIx} (b : Byte) (h : j ≠ k) : (s.setReg k b).reg j = s.reg j := by
  rw [State.reg_setReg, if_neg h]

theorem State.reg_of_v {s t : State} (h : t.v = s.v) (k : RegIx) : t.reg k = s.reg k := by simp only [State.reg, h]

/-- Reading memory depends on the fields mem and font alone. -/
theorem State.readByte_of_mem {s t : State} (h : t.mem = s.mem) (hf : t.font = s.font) (a : Nat) : t.readByte a = s.readByte a := by
  simp only [State.readByte, h, hf]

end Sys2Proof.Machine
end

