-- ==== Sys2Proof/Laws/Memory.lean ====
section
/-! SUPPORT. The laws of memory: a read after a write, and the canonical form that every write keeps. -/

namespace Sys2Proof.Machine

/-! ## The sizes as numbers, for arithmetic -/

@[simp] theorem memSize_eq : Config.memSize = 0x1000 := rfl

@[simp] theorem progBase_eq : Config.progBase = 0x200 := rfl

@[simp] theorem progMax_eq : Config.progMax = 3584 := rfl

/-! ## Reading -/

variable {font : Font}

theorem Memory.read_erase_other (m : Memory) {a b : Nat} (h : b ≠ a) : (m.erase a).read font b = m.read font b := by
  induction m with
  | nil => rfl
  | cons c rest ih =>
    obtain ⟨k, v⟩ := c
    unfold Memory.erase at ih ⊢
    by_cases hk : k = a
    · subst hk
      simpa [Memory.read, Ne.symm h] using ih
    · simp only [List.filter_cons, bne_iff_ne, ne_eq, hk, not_false_eq_true, if_true, Memory.read]
      rw [ih]

theorem Memory.read_erase_self (m : Memory) (a : Nat) : (m.erase a).read font a = initialByte font a := by
  induction m with
  | nil => rfl
  | cons c rest ih =>
    obtain ⟨k, v⟩ := c
    unfold Memory.erase at ih ⊢
    by_cases hk : k = a
    · simpa [hk] using ih
    · simpa [hk, Memory.read] using ih

theorem Memory.read_insert (m : Memory) (a : Nat) (v : Byte) (h : ∀ c ∈ m, c.1 ≠ a) (b : Nat) :
    (m.insert a v).read font b = if b = a then v else m.read font b := by
  induction m with
  | nil => simp [Memory.insert, Memory.read, eq_comm]
  | cons c rest ih =>
    obtain ⟨k, w⟩ := c
    have hk : k ≠ a := h (k, w) (by simp)
    have ih' := ih fun c hc => h c (by simp [hc])
    simp only [Memory.insert]
    split
    · simp only [Memory.read, ih']
      by_cases hb : k = b
      · simp [hb ▸ hk, hb]
      · simp [hb]
    · simp only [Memory.read, eq_comm]

theorem Memory.not_mem_erase (m : Memory) (a : Nat) : ∀ c ∈ m.erase a, c.1 ≠ a := by
  intro c hc
  simpa using (List.mem_filter.mp hc).2

/-- A read after a write gives the byte written at its address and the old byte everywhere else, whatever the memory lists. -/
theorem Memory.read_write (m : Memory) (a : Nat) (v : Byte) (b : Nat) : (m.write font a v).read font b = if b = a then v else m.read font b := by
  unfold Memory.write
  split
  · rename_i hv
    by_cases hb : b = a
    · rw [if_pos hb, hb, Memory.read_erase_self, hv]
    · rw [if_neg hb, Memory.read_erase_other m hb]
  · rw [Memory.read_insert _ _ _ (Memory.not_mem_erase m a)]
    by_cases hb : b = a
    · simp [hb]
    · simp [hb, Memory.read_erase_other m hb]

theorem State.readByte_writeByte (s : State) (a : Nat) (v : Byte) (b : Nat) :
    (s.writeByte a v).readByte b = if b = a then v else s.readByte b := by
  simp only [State.readByte, State.writeByte_mem, State.writeByte_font, Memory.read_write]

/-- After storing a run of bytes, an address inside it reads as its byte and every other address as before. -/
theorem State.readByte_writeBytes (s : State) (a : Nat) (bs : List Byte) (b : Nat) :
    (s.writeBytes a bs).readByte b = if h : a ≤ b ∧ b - a < bs.length then bs[b - a] else s.readByte b := by
  induction bs generalizing s a with
  | nil => simp [State.writeBytes]
  | cons v rest ih =>
    rw [State.writeBytes, ih, State.readByte_writeByte]
    by_cases h1 : a + 1 ≤ b ∧ b - (a + 1) < rest.length
    · have h2 : a ≤ b ∧ b - a < (v :: rest).length := by simp; omega
      rw [dif_pos h1, dif_pos h2]
      have h3 : b - a = (b - (a + 1)) + 1 := by omega
      simp [h3]
    · rw [dif_neg h1]
      by_cases hb : b = a
      · subst hb
        simp
      · have h2 : ¬(a ≤ b ∧ b - a < (v :: rest).length) := by simp; omega
        rw [dif_neg h2, if_neg hb]

/-! ## The canonical form -/

theorem Memory.wf_nil : Memory.wf [] font := by simp [Memory.wf]

theorem Memory.wf_erase {m : Memory} (h : m.wf font) (a : Nat) : (m.erase a).wf font :=
  ⟨h.1.filter _, fun c hc => h.2 c (List.mem_of_mem_filter hc)⟩

theorem Memory.mem_insert {m : Memory} {a : Nat} {v : Byte} {c : Host.Cell} (hc : c ∈ m.insert a v) : c = (a, v) ∨ c ∈ m := by
  induction m with
  | nil => simpa [Memory.insert] using hc
  | cons d rest ih =>
    obtain ⟨k, w⟩ := d
    simp only [Memory.insert] at hc
    split at hc
    · rcases List.mem_cons.mp hc with rfl | h
      · simp
      · rcases ih h with h | h <;> simp [h]
    · simpa using hc

theorem Memory.wf_insert {m : Memory} (h : m.wf font) {a : Nat} {v : Byte} (hm : ∀ c ∈ m, c.1 ≠ a) (ha : a < Config.memSize)
    (hv : v ≠ initialByte font a) : (m.insert a v).wf font := by
  refine ⟨?_, fun c hc => ?_⟩
  · induction m with
    | nil => simp [Memory.insert]
    | cons d rest ih =>
      obtain ⟨k, w⟩ := d
      have hs := List.pairwise_cons.mp h.1
      have hk : k ≠ a := hm (k, w) (by simp)
      simp only [Memory.insert]
      split
      · rename_i hlt
        refine List.pairwise_cons.mpr ⟨fun c hc => ?_, ih ⟨hs.2, fun c hc => h.2 c (by simp [hc])⟩ fun c hc => hm c (by simp [hc])⟩
        rcases Memory.mem_insert hc with rfl | hc
        · exact hlt
        · exact hs.1 c hc
      · refine List.pairwise_cons.mpr ⟨fun c hc => ?_, h.1⟩
        rcases List.mem_cons.mp hc with rfl | hc
        · show a < k
          omega
        · have := hs.1 c hc
          show a < c.1
          simp at this
          omega
  · rcases Memory.mem_insert hc with rfl | hc
    · exact ⟨ha, hv⟩
    · exact h.2 c hc

/-- Every write into the address space keeps the canonical form. -/
theorem Memory.wf_write {m : Memory} (h : m.wf font) {a : Nat} (ha : a < Config.memSize) (v : Byte) : (m.write font a v).wf font := by
  unfold Memory.write
  split
  · exact Memory.wf_erase h a
  · rename_i hv
    exact Memory.wf_insert (Memory.wf_erase h a) (Memory.not_mem_erase m a) ha hv

theorem State.wf_writeBytes {s : State} (h : s.mem.wf s.font) (a : Nat) (bs : List Byte) (ha : a + bs.length ≤ Config.memSize) :
    (s.writeBytes a bs).mem.wf s.font := by
  induction bs generalizing s a with
  | nil => exact h
  | cons v rest ih =>
    simp only [List.length_cons] at ha
    exact ih (s := s.writeByte a v) (Memory.wf_write h (by simp only [Config.memSize] at ha ⊢; omega) v) (a + 1) (by omega)

/-- Storing bytes changes the field mem and no other. -/
theorem State.writeBytes_frame (s : State) (a : Nat) (bs : List Byte) : s.writeBytes a bs = { s with mem := (s.writeBytes a bs).mem } := by
  induction bs generalizing s a with
  | nil => rfl
  | cons v rest ih => rw [State.writeBytes, ih]; rfl

@[simp] theorem State.writeBytes_font (s : State) (a : Nat) (bs : List Byte) : (s.writeBytes a bs).font = s.font := by
  rw [State.writeBytes_frame]

/-- The memory after RESET is in the canonical form. -/
theorem reset_memory_wf : State.reset.mem.wf State.reset.font := Memory.wf_nil

end Sys2Proof.Machine
end

