-- ==== Sys2Proof/Laws/Ops.lean ====
section
/-! SUPPORT. One lemma per shared operation that says all it can do. -/

namespace Sys2Proof.Machine

/-! ## Raising a fault -/

theorem State.halted_iff (s : State) : s.halted = true ↔ s.fault.code ≠ .none := by simp [State.halted]

theorem State.raise_eq (s : State) (code : FaultCode) (addr : Word) :
    s.raise code addr = .next { s with pc := s.pc - 2, fault := ⟨code, s.pc - 2, addr⟩ } := rfl

/-- A bounds check goes on when the access lies in memory. -/
theorem State.checkRange_inside (s : State) {base : Word} {n : Nat} (h : RangeOk base n) (go : Result) :
    s.checkRange base n go = go := if_pos h

/-- A bounds check raises OutOfBounds when the access leaves memory, whatever would have followed. -/
theorem State.checkRange_outside (s : State) {base : Word} {n : Nat} (h : ¬RangeOk base n) (go : Result) :
    s.checkRange base n go =
      .next { s with pc := s.pc - 2, fault := ⟨.outOfBounds, s.pc - 2, firstOutside base⟩ } := if_neg h

/-- The address that OutOfBounds reports lies outside memory. -/
theorem firstOutside_outside (base : Word) : Config.memSize ≤ (firstOutside base).toNat := by
  unfold firstOutside
  split
  · decide
  · simp only [Config.memSize]
    omega

/-- The address that OutOfBounds reports is the larger of the base and 0x1000. -/
theorem firstOutside_toNat (base : Word) : (firstOutside base).toNat = max base.toNat 0x1000 := by
  unfold firstOutside
  split
  · show 0x1000 = _
    omega
  · omega

/-! ## The call stack -/

theorem State.push_room (s : State) (w : Word) (h : s.sp.val < 16) :
    s.push w = some { s with stack := s.stack.set s.sp.val w, sp := ⟨s.sp.val + 1, by omega⟩ } := dif_pos h

theorem State.push_full (s : State) (w : Word) (h : s.sp = 16) : s.push w = none := by
  unfold State.push
  rw [dif_neg]
  simp [h]

theorem State.pop_some (s : State) (h : 0 < s.sp.val) :
    s.pop = some (s.stack[s.sp.val - 1], { s with sp := ⟨s.sp.val - 1, by omega⟩ }) := dif_pos h

theorem State.pop_empty (s : State) (h : s.sp = 0) : s.pop = none := by
  unfold State.pop
  rw [dif_neg]
  simp [h]

/-! ## Grids -/

@[simp] theorem Grid.cell_clear (x : Fin 64) (y : Fin 32) : Grid.clear.cell x y = false := by
  simp [Grid.cell, Grid.clear]

@[simp] theorem Grid.cell_ofCells (f : Fin 64 → Fin 32 → Bool) (x : Fin 64) (y : Fin 32) : (Grid.ofCells f).cell x y = f x y := by
  simp [Grid.cell, Grid.ofCells]

theorem Grid.cell_setCell (g : Grid) (x : Fin 64) (y : Fin 32) (b : Bool) (x' : Fin 64) (y' : Fin 32) :
    (g.setCell x y b).cell x' y' = if x' = x ∧ y' = y then b else g.cell x' y' := by
  unfold Grid.cell Grid.setCell
  by_cases hx : x' = x
  · subst hx
    by_cases hy : y' = y
    · subst hy
      simp
    · have : y.val ≠ y'.val := fun h => hy (Fin.ext h.symm)
      simp [this, hy]
  · have : x.val ≠ x'.val := fun h => hx (Fin.ext h.symm)
    simp [this, hx]

/-- Two grids with the same cells are equal. -/
theorem Grid.ext_cell {g h : Grid} (e : ∀ x y, g.cell x y = h.cell x y) : g = h := by
  apply Vector.ext
  intro i hi
  apply Vector.ext
  intro j hj
  exact e ⟨i, hi⟩ ⟨j, hj⟩

theorem anyCell_iff (p : Fin 64 → Fin 32 → Bool) : anyCell p = true ↔ ∃ x y, p x y = true := by
  simp [anyCell]

/-! ## Keys -/

theorem lowestKey_none (keys : BitVec 16) : lowestKey keys = none ↔ keys = 0 := by
  unfold lowestKey
  rw [List.find?_eq_none]
  constructor
  · intro h
    apply BitVec.eq_of_getLsbD_eq
    intro i hi
    have := h ⟨i, hi⟩ (List.mem_finRange _)
    simpa using this
  · rintro rfl k -
    simp

/-! ## Flags -/

theorem flagByte_eq_one (b : Bool) : flagByte b = 1 ↔ b = true := by cases b <;> decide

theorem flagByte_zero_or_one (b : Bool) : flagByte b = 0 ∨ flagByte b = 1 := by cases b <;> decide

/-- The registers after the two writes of a flagged instruction, by the order of R190: the last write wins. -/
theorem State.reg_flagThenWrite (s : State) (flag : Byte) (dst : RegIx) (result : State → Byte) (k : RegIx) :
    (s.flagThenWrite flag dst result).reg k =
      if k = dst then result (s.setReg VF flag) else if k = VF then flag else s.reg k := by
  simp only [State.flagThenWrite, State.reg_setReg]

end Sys2Proof.Machine
end

