-- ==== Sys2Proof/Laws/Cycle.lean ====
section
/-! SUPPORT. Which operation comes next, and what the operations other than STEP can change. -/

namespace Sys2Proof.Machine

/-! ## The next operation -/

theorem State.nextOperation_waiting {s : State} {op : Operation} {rest : List Operation} (h : s.schedule = op :: rest) :
    s.nextOperation = (op, { s with schedule := rest }) := by simp only [State.nextOperation, h]

theorem State.nextOperation_steps {s : State} (h : s.schedule = []) (hr : s.scheduler = .round []) : s.nextOperation = (.step, s) := by
  simp only [State.nextOperation, h, hr]

theorem State.nextOperation_round {s : State} {op : Operation} {rest : List Operation} (h : s.schedule = [])
    (hr : s.scheduler = .round (op :: rest)) : s.nextOperation = (op, { s with schedule := rest }) := by
  simp only [State.nextOperation, h, hr]

theorem State.nextOperation_free {s : State} {turn : Nat} (h : s.schedule = []) (hr : s.scheduler = .free turn) :
    s.nextOperation = (Config.freeOperation turn, { s with scheduler := .free (turn + 1) }) := by
  simp only [State.nextOperation, h, hr]

/-- Taking an operation changes the schedule and the scheduler at most. -/
theorem State.nextOperation_frame (s : State) :
    s.nextOperation.2 = { s with schedule := s.nextOperation.2.schedule, scheduler := s.nextOperation.2.scheduler } := by
  unfold State.nextOperation
  split <;> rfl

/-! ## The operations other than STEP -/

/-- TICK changes the delay timer, RD and the outputs at most. -/
theorem tick_frame (s : State) : tick s = { s with dt := (tick s).dt, rd := (tick s).rd, outputs := (tick s).outputs } := by
  unfold tick
  split <;> dsimp only <;> split <;> rfl

/-- LOAD changes memory at most. -/
theorem load_frame (bytes : List Byte) (s : State) : load bytes s = { s with mem := (load bytes s).mem } := by
  unfold load
  split
  · exact State.writeBytes_frame _ _ _
  · rfl

@[simp] theorem load_font (bytes : List Byte) (s : State) : (load bytes s).font = s.font := by rw [load_frame]

theorem loadResult_ok {bytes : List Byte} (h : bytes.length ≤ 3584) : loadResult bytes = .ok := if_pos h

theorem loadResult_tooLarge {bytes : List Byte} (h : 3584 < bytes.length) : loadResult bytes = .errOutOfBounds :=
  if_neg (Nat.not_le.mpr h)

/-- LOAD keeps the canonical form. -/
theorem load_wf (bytes : List Byte) {s : State} (h : s.mem.wf s.font) : (load bytes s).mem.wf s.font := by
  by_cases hl : bytes.length ≤ 3584
  · simp only [load, loadResult_ok hl]
    exact State.wf_writeBytes h _ _ (by simp; omega)
  · simpa only [load, loadResult_tooLarge (Nat.lt_of_not_le hl)] using h

end Sys2Proof.Machine
end

