-- ==== Sys2Proof/Laws/Fields.lean ====
section
/-! SUPPORT. The packed word and its fields as numbers: each field of a word is a quotient and a remainder, each packed word a sum, so
that reading a field back is arithmetic. -/

namespace Sys2Proof

/-! ## Packed words as sums -/

theorem toNat_append' {n m : Nat} (a : BitVec n) (b : BitVec m) : (a ++ b).toNat = a.toNat * 2 ^ m + b.toNat := by
  rw [BitVec.toNat_append, Nat.shiftLeft_eq, Nat.mul_comm]
  exact (Nat.two_pow_add_eq_or_of_lt b.isLt a.toNat).symm

theorem toNat_packA (g : Nibble) (a : Addr12) : (packA g a).toNat = g.toNat * 4096 + a.toNat := toNat_append' g a

theorem toNat_packI (g x : Nibble) (nn : Byte) : (packI g x nn).toNat = g.toNat * 4096 + x.toNat * 256 + nn.toNat := by
  refine (toNat_append' (g ++ x) nn).trans ?_
  rw [toNat_append']
  omega

theorem toNat_packR (g x y n : Nibble) : (packR g x y n).toNat = g.toNat * 4096 + x.toNat * 256 + y.toNat * 16 + n.toNat := by
  refine (toNat_append' (g ++ x ++ y) n).trans ?_
  rw [toNat_append', toNat_append']
  omega

theorem toNat_joinBytes (hi lo : Byte) : (joinBytes hi lo).toNat = hi.toNat * 256 + lo.toNat := toNat_append' hi lo

/-! ## Fields as quotients and remainders -/

theorem toNat_slice {n : Nat} (op : BitVec n) (start len : Nat) :
    (op.extractLsb' start len).toNat = op.toNat / 2 ^ start % 2 ^ len := by
  simp [BitVec.extractLsb'_toNat, Nat.shiftRight_eq_div_pow]

theorem val_fieldGroup (op : Word) : (fieldGroup op).val = op.toNat / 4096 := by
  refine (toNat_slice op 12 4).trans ?_
  omega

theorem toNat_nibbleX (op : Word) : (nibbleX op).toNat = op.toNat / 256 % 16 := toNat_slice op 8 4

theorem toNat_nibbleY (op : Word) : (nibbleY op).toNat = op.toNat / 16 % 16 := toNat_slice op 4 4

theorem toNat_fieldN (op : Word) : (fieldN op).toNat = op.toNat % 16 := by
  refine (toNat_slice op 0 4).trans ?_
  omega

theorem toNat_fieldNN (op : Word) : (fieldNN op).toNat = op.toNat % 256 := by
  refine (toNat_slice op 0 8).trans ?_
  omega

theorem toNat_fieldNNN (op : Word) : (fieldNNN op).toNat = op.toNat % 4096 := by
  refine (toNat_slice op 0 12).trans ?_
  omega

/-! ## Reading the fields back -/

@[simp] theorem fieldGroup_packA (g : Nibble) (a : Addr12) : fieldGroup (packA g a) = g.toFin := by
  apply Fin.ext
  rw [val_fieldGroup, toNat_packA]
  show _ = g.toNat
  omega

@[simp] theorem fieldNNN_packA (g : Nibble) (a : Addr12) : fieldNNN (packA g a) = a := by
  apply BitVec.eq_of_toNat_eq
  rw [toNat_fieldNNN, toNat_packA]
  omega

@[simp] theorem fieldGroup_packI (g x : Nibble) (nn : Byte) : fieldGroup (packI g x nn) = g.toFin := by
  apply Fin.ext
  rw [val_fieldGroup, toNat_packI]
  show _ = g.toNat
  omega

@[simp] theorem nibbleX_packI (g x : Nibble) (nn : Byte) : nibbleX (packI g x nn) = x := by
  apply BitVec.eq_of_toNat_eq
  rw [toNat_nibbleX, toNat_packI]
  omega

@[simp] theorem fieldNN_packI (g x : Nibble) (nn : Byte) : fieldNN (packI g x nn) = nn := by
  apply BitVec.eq_of_toNat_eq
  rw [toNat_fieldNN, toNat_packI]
  omega

@[simp] theorem fieldGroup_packR (g x y n : Nibble) : fieldGroup (packR g x y n) = g.toFin := by
  apply Fin.ext
  rw [val_fieldGroup, toNat_packR]
  show _ = g.toNat
  omega

@[simp] theorem nibbleX_packR (g x y n : Nibble) : nibbleX (packR g x y n) = x := by
  apply BitVec.eq_of_toNat_eq
  rw [toNat_nibbleX, toNat_packR]
  omega

@[simp] theorem nibbleY_packR (g x y n : Nibble) : nibbleY (packR g x y n) = y := by
  apply BitVec.eq_of_toNat_eq
  rw [toNat_nibbleY, toNat_packR]
  omega

@[simp] theorem fieldN_packR (g x y n : Nibble) : fieldN (packR g x y n) = n := by
  apply BitVec.eq_of_toNat_eq
  rw [toNat_fieldN, toNat_packR]
  omega

@[simp] theorem toFin_regBits (x : RegIx) : (regBits x).toFin = x := rfl

@[simp] theorem fieldX_packI (g : Nibble) (x : RegIx) (nn : Byte) : fieldX (packI g (regBits x) nn) = x := by
  rw [fieldX, nibbleX_packI, toFin_regBits]

@[simp] theorem fieldX_packR (g : Nibble) (x : RegIx) (y n : Nibble) : fieldX (packR g (regBits x) y n) = x := by
  rw [fieldX, nibbleX_packR, toFin_regBits]

@[simp] theorem fieldY_packR (g x : Nibble) (y : RegIx) (n : Nibble) : fieldY (packR g x (regBits y) n) = y := by
  rw [fieldY, nibbleY_packR, toFin_regBits]

/-! ## Fields of a word known under a mask -/

/-- Where the mask has a run of ones, the word has the bits of the value. -/
theorem slice_of_mask {op mask value : Word} (h : op &&& mask = value) (start len : Nat)
    (ones : mask.toNat / 2 ^ start % 2 ^ len = 2 ^ len - 1) :
    op.toNat / 2 ^ start % 2 ^ len = value.toNat / 2 ^ start % 2 ^ len := by
  rw [← h, BitVec.toNat_and, Nat.and_div_two_pow, Nat.and_mod_two_pow, ones, Nat.and_two_pow_sub_one_eq_mod, Nat.mod_mod]

theorem fieldGroup_of_mask {op mask value : Word} (h : op &&& mask = value) (ones : mask.toNat / 4096 = 15) :
    fieldGroup op = fieldGroup value := by
  have key := slice_of_mask h 12 4 (by omega)
  apply Fin.ext
  rw [val_fieldGroup, val_fieldGroup]
  omega

theorem fieldN_of_mask {op mask value : Word} (h : op &&& mask = value) (ones : mask.toNat % 16 = 15) : fieldN op = fieldN value := by
  have key := slice_of_mask h 0 4 (by omega)
  apply BitVec.eq_of_toNat_eq
  rw [toNat_fieldN, toNat_fieldN]
  omega

theorem fieldNN_of_mask {op mask value : Word} (h : op &&& mask = value) (ones : mask.toNat % 256 = 255) :
    fieldNN op = fieldNN value := by
  have key := slice_of_mask h 0 8 (by omega)
  apply BitVec.eq_of_toNat_eq
  rw [toNat_fieldNN, toNat_fieldNN]
  omega

/-! ## The bytes of a word -/

@[simp] theorem joinBytes_splitWord (op : Word) : joinBytes (splitWord op).1 (splitWord op).2 = op := by
  apply BitVec.eq_of_toNat_eq
  rw [toNat_joinBytes, splitWord, toNat_slice, toNat_slice]
  omega

@[simp] theorem splitWord_joinBytes (hi lo : Byte) : splitWord (joinBytes hi lo) = (hi, lo) := by
  refine Prod.ext ?_ ?_ <;> apply BitVec.eq_of_toNat_eq <;>
    simp only [splitWord, toNat_slice, toNat_joinBytes] <;> omega

end Sys2Proof
end

