-- ==== Sys2Proof/Laws/Decode.lean ====
section
/-! SUPPORT. The decoder by group and by sub-code: one equation for each arm. -/

namespace Sys2Proof

/-! ## By group -/

theorem decodeWord_group0 {op : Word} (h : fieldGroup op = 0) : decodeWord op = decodeGroup0 op := by
  unfold decodeWord
  rw [h]
  rfl

theorem decodeWord_group1 {op : Word} (h : fieldGroup op = 1) : decodeWord op = .jp (fieldNNN op) := by
  unfold decodeWord
  rw [h]
  rfl

theorem decodeWord_group2 {op : Word} (h : fieldGroup op = 2) : decodeWord op = .call (fieldNNN op) := by
  unfold decodeWord
  rw [h]
  rfl

theorem decodeWord_group3 {op : Word} (h : fieldGroup op = 3) : decodeWord op = .seImm (fieldX op) (fieldNN op) := by
  unfold decodeWord
  rw [h]
  rfl

theorem decodeWord_group4 {op : Word} (h : fieldGroup op = 4) : decodeWord op = .sneImm (fieldX op) (fieldNN op) := by
  unfold decodeWord
  rw [h]
  rfl

theorem decodeWord_group5 {op : Word} (h : fieldGroup op = 5) : decodeWord op = .seReg (fieldX op) (fieldY op) (fieldN op) := by
  unfold decodeWord
  rw [h]
  rfl

theorem decodeWord_group6 {op : Word} (h : fieldGroup op = 6) : decodeWord op = .ldImm (fieldX op) (fieldNN op) := by
  unfold decodeWord
  rw [h]
  rfl

theorem decodeWord_group7 {op : Word} (h : fieldGroup op = 7) : decodeWord op = .addImm (fieldX op) (fieldNN op) := by
  unfold decodeWord
  rw [h]
  rfl

theorem decodeWord_group8 {op : Word} (h : fieldGroup op = 8) : decodeWord op = decodeGroup8 op := by
  unfold decodeWord
  rw [h]
  rfl

theorem decodeWord_group9 {op : Word} (h : fieldGroup op = 9) : decodeWord op = .sneReg (fieldX op) (fieldY op) (fieldN op) := by
  unfold decodeWord
  rw [h]
  rfl

theorem decodeWord_groupA {op : Word} (h : fieldGroup op = 10) : decodeWord op = .ldI (fieldNNN op) := by
  unfold decodeWord
  rw [h]
  rfl

theorem decodeWord_groupB {op : Word} (h : fieldGroup op = 11) : decodeWord op = .jpV0 (fieldNNN op) := by
  unfold decodeWord
  rw [h]
  rfl

theorem decodeWord_groupC {op : Word} (h : fieldGroup op = 12) : decodeWord op = .rnd (fieldX op) (fieldNN op) := by
  unfold decodeWord
  rw [h]
  rfl

theorem decodeWord_groupD {op : Word} (h : fieldGroup op = 13) : decodeWord op = .drw (fieldX op) (fieldY op) (fieldN op) := by
  unfold decodeWord
  rw [h]
  rfl

theorem decodeWord_groupE {op : Word} (h : fieldGroup op = 14) : decodeWord op = decodeGroupE op := by
  unfold decodeWord
  rw [h]
  rfl

theorem decodeWord_groupF {op : Word} (h : fieldGroup op = 15) : decodeWord op = decodeGroupF op := by
  unfold decodeWord
  rw [h]
  rfl

/-! ## By sub-code in group 0x8 -/

theorem decodeGroup8_0 {op : Word} (h : fieldN op = 0x0#4) : decodeGroup8 op = .ldReg (fieldX op) (fieldY op) := by
  unfold decodeGroup8
  rw [h]
  rfl

theorem decodeGroup8_1 {op : Word} (h : fieldN op = 0x1#4) : decodeGroup8 op = .orReg (fieldX op) (fieldY op) := by
  unfold decodeGroup8
  rw [h]
  rfl

theorem decodeGroup8_2 {op : Word} (h : fieldN op = 0x2#4) : decodeGroup8 op = .andReg (fieldX op) (fieldY op) := by
  unfold decodeGroup8
  rw [h]
  rfl

theorem decodeGroup8_3 {op : Word} (h : fieldN op = 0x3#4) : decodeGroup8 op = .xorReg (fieldX op) (fieldY op) := by
  unfold decodeGroup8
  rw [h]
  rfl

theorem decodeGroup8_4 {op : Word} (h : fieldN op = 0x4#4) : decodeGroup8 op = .addReg (fieldX op) (fieldY op) := by
  unfold decodeGroup8
  rw [h]
  rfl

theorem decodeGroup8_5 {op : Word} (h : fieldN op = 0x5#4) : decodeGroup8 op = .subReg (fieldX op) (fieldY op) := by
  unfold decodeGroup8
  rw [h]
  rfl

theorem decodeGroup8_6 {op : Word} (h : fieldN op = 0x6#4) : decodeGroup8 op = .shr (fieldX op) (nibbleY op) := by
  unfold decodeGroup8
  rw [h]
  rfl

theorem decodeGroup8_7 {op : Word} (h : fieldN op = 0x7#4) : decodeGroup8 op = .subnReg (fieldX op) (fieldY op) := by
  unfold decodeGroup8
  rw [h]
  rfl

theorem decodeGroup8_E {op : Word} (h : fieldN op = 0xE#4) : decodeGroup8 op = .shl (fieldX op) (nibbleY op) := by
  unfold decodeGroup8
  rw [h]
  rfl

theorem decodeGroup8_reserved {op : Word} (h : definedIn8 (fieldN op) = false) :
    decodeGroup8 op = .rsv8 (nibbleX op) (nibbleY op) (fieldN op) := by
  unfold decodeGroup8
  generalize fieldX op = x
  generalize fieldY op = y
  generalize nibbleX op = x'
  generalize nibbleY op = y'
  generalize fieldN op = n at *
  revert h
  have all : ∀ n : Nibble, definedIn8 n = false →
      n = 8 ∨ n = 9 ∨ n = 10 ∨ n = 11 ∨ n = 12 ∨ n = 13 ∨ n = 15 := by decide
  intro h
  rcases all n h with rfl | rfl | rfl | rfl | rfl | rfl | rfl <;> rfl

/-! ## Reserved sub-codes of the other groups -/

theorem decodeGroup0_reserved {op : Word} (h : definedIn0 (fieldNN op) = false) :
    decodeGroup0 op = .rsv0 (nibbleX op) (fieldNN op) := by
  simp only [definedIn0, Bool.or_eq_false_iff, beq_eq_false_iff_ne] at h
  simp only [decodeGroup0, h, if_false]

theorem decodeGroupE_reserved {op : Word} (h : definedInE (fieldNN op) = false) :
    decodeGroupE op = .rsvE (nibbleX op) (fieldNN op) := by
  simp only [definedInE, Bool.or_eq_false_iff, beq_eq_false_iff_ne] at h
  simp only [decodeGroupE, h, if_false]

theorem decodeGroupF_unknown {op : Word} (h : definedInF (fieldNN op) = false) :
    decodeGroupF op = .nopF (nibbleX op) (fieldNN op) := by
  simp only [definedInF, Bool.or_eq_false_iff, beq_eq_false_iff_ne] at h
  simp only [decodeGroupF, h, if_false]

end Sys2Proof
end

