-- ==== Sys2Proof/Laws/PerInstr.lean ====
section
/-! SUPPORT. Facts about every instruction as syntax, one lemma per constructor: its word decodes to it. -/

namespace Sys2Proof.Laws.RoundTrip

/-- Decoding the word of a well-formed instruction gives it back, every operand and every ignored nibble. -/
def Statement (i : Instr) : Prop := i.wellFormed = true → decodeWord (encode i) = i

theorem cls (ign : Nibble) : Statement (.cls ign) := fun _ => by
  refine (decodeWord_group0 (fieldGroup_packI 0x0#4 _ _)).trans ?_
  simp [decodeGroup0]

theorem ret (ign : Nibble) : Statement (.ret ign) := fun _ => by
  refine (decodeWord_group0 (fieldGroup_packI 0x0#4 _ _)).trans ?_
  simp [decodeGroup0]

theorem jp (nnn : Addr12) : Statement (.jp nnn) := fun _ => by
  refine (decodeWord_group1 (fieldGroup_packA 0x1#4 _)).trans ?_
  simp

theorem call (nnn : Addr12) : Statement (.call nnn) := fun _ => by
  refine (decodeWord_group2 (fieldGroup_packA 0x2#4 _)).trans ?_
  simp

theorem seImm (x : RegIx) (nn : Byte) : Statement (.seImm x nn) := fun _ => by
  refine (decodeWord_group3 (fieldGroup_packI 0x3#4 _ _)).trans ?_
  simp

theorem sneImm (x : RegIx) (nn : Byte) : Statement (.sneImm x nn) := fun _ => by
  refine (decodeWord_group4 (fieldGroup_packI 0x4#4 _ _)).trans ?_
  simp

theorem seReg (x y : RegIx) (ign : Nibble) : Statement (.seReg x y ign) := fun _ => by
  refine (decodeWord_group5 (fieldGroup_packR 0x5#4 _ _ _)).trans ?_
  simp

theorem ldImm (x : RegIx) (nn : Byte) : Statement (.ldImm x nn) := fun _ => by
  refine (decodeWord_group6 (fieldGroup_packI 0x6#4 _ _)).trans ?_
  simp

theorem addImm (x : RegIx) (nn : Byte) : Statement (.addImm x nn) := fun _ => by
  refine (decodeWord_group7 (fieldGroup_packI 0x7#4 _ _)).trans ?_
  simp

theorem ldReg (x y : RegIx) : Statement (.ldReg x y) := fun _ => by
  refine (decodeWord_group8 (fieldGroup_packR 0x8#4 _ _ _)).trans ?_
  rw [decodeGroup8_0 (fieldN_packR _ _ _ _)]
  simp

theorem orReg (x y : RegIx) : Statement (.orReg x y) := fun _ => by
  refine (decodeWord_group8 (fieldGroup_packR 0x8#4 _ _ _)).trans ?_
  rw [decodeGroup8_1 (fieldN_packR _ _ _ _)]
  simp

theorem andReg (x y : RegIx) : Statement (.andReg x y) := fun _ => by
  refine (decodeWord_group8 (fieldGroup_packR 0x8#4 _ _ _)).trans ?_
  rw [decodeGroup8_2 (fieldN_packR _ _ _ _)]
  simp

theorem xorReg (x y : RegIx) : Statement (.xorReg x y) := fun _ => by
  refine (decodeWord_group8 (fieldGroup_packR 0x8#4 _ _ _)).trans ?_
  rw [decodeGroup8_3 (fieldN_packR _ _ _ _)]
  simp

theorem addReg (x y : RegIx) : Statement (.addReg x y) := fun _ => by
  refine (decodeWord_group8 (fieldGroup_packR 0x8#4 _ _ _)).trans ?_
  rw [decodeGroup8_4 (fieldN_packR _ _ _ _)]
  simp

theorem subReg (x y : RegIx) : Statement (.subReg x y) := fun _ => by
  refine (decodeWord_group8 (fieldGroup_packR 0x8#4 _ _ _)).trans ?_
  rw [decodeGroup8_5 (fieldN_packR _ _ _ _)]
  simp

theorem shr (x : RegIx) (ign : Nibble) : Statement (.shr x ign) := fun _ => by
  refine (decodeWord_group8 (fieldGroup_packR 0x8#4 _ _ _)).trans ?_
  rw [decodeGroup8_6 (fieldN_packR _ _ _ _)]
  simp

theorem subnReg (x y : RegIx) : Statement (.subnReg x y) := fun _ => by
  refine (decodeWord_group8 (fieldGroup_packR 0x8#4 _ _ _)).trans ?_
  rw [decodeGroup8_7 (fieldN_packR _ _ _ _)]
  simp

theorem shl (x : RegIx) (ign : Nibble) : Statement (.shl x ign) := fun _ => by
  refine (decodeWord_group8 (fieldGroup_packR 0x8#4 _ _ _)).trans ?_
  rw [decodeGroup8_E (fieldN_packR _ _ _ _)]
  simp

theorem sneReg (x y : RegIx) (ign : Nibble) : Statement (.sneReg x y ign) := fun _ => by
  refine (decodeWord_group9 (fieldGroup_packR 0x9#4 _ _ _)).trans ?_
  simp

theorem ldI (nnn : Addr12) : Statement (.ldI nnn) := fun _ => by
  refine (decodeWord_groupA (fieldGroup_packA 0xA#4 _)).trans ?_
  simp

theorem jpV0 (nnn : Addr12) : Statement (.jpV0 nnn) := fun _ => by
  refine (decodeWord_groupB (fieldGroup_packA 0xB#4 _)).trans ?_
  simp

theorem rnd (x : RegIx) (nn : Byte) : Statement (.rnd x nn) := fun _ => by
  refine (decodeWord_groupC (fieldGroup_packI 0xC#4 _ _)).trans ?_
  simp

theorem drw (x y : RegIx) (n : Nibble) : Statement (.drw x y n) := fun _ => by
  refine (decodeWord_groupD (fieldGroup_packR 0xD#4 _ _ _)).trans ?_
  simp

theorem skp (x : RegIx) : Statement (.skp x) := fun _ => by
  refine (decodeWord_groupE (fieldGroup_packI 0xE#4 _ _)).trans ?_
  simp [decodeGroupE]

theorem sknp (x : RegIx) : Statement (.sknp x) := fun _ => by
  refine (decodeWord_groupE (fieldGroup_packI 0xE#4 _ _)).trans ?_
  simp [decodeGroupE]

theorem ldDt (x : RegIx) : Statement (.ldDt x) := fun _ => by
  refine (decodeWord_groupF (fieldGroup_packI 0xF#4 _ _)).trans ?_
  simp [decodeGroupF]

theorem ldKey (x : RegIx) : Statement (.ldKey x) := fun _ => by
  refine (decodeWord_groupF (fieldGroup_packI 0xF#4 _ _)).trans ?_
  simp [decodeGroupF]

theorem setDt (x : RegIx) : Statement (.setDt x) := fun _ => by
  refine (decodeWord_groupF (fieldGroup_packI 0xF#4 _ _)).trans ?_
  simp [decodeGroupF]

theorem setSound (x : RegIx) : Statement (.setSound x) := fun _ => by
  refine (decodeWord_groupF (fieldGroup_packI 0xF#4 _ _)).trans ?_
  simp [decodeGroupF]

theorem addI (x : RegIx) : Statement (.addI x) := fun _ => by
  refine (decodeWord_groupF (fieldGroup_packI 0xF#4 _ _)).trans ?_
  simp [decodeGroupF]

theorem ldFont (x : RegIx) : Statement (.ldFont x) := fun _ => by
  refine (decodeWord_groupF (fieldGroup_packI 0xF#4 _ _)).trans ?_
  simp [decodeGroupF]

theorem storeBcd (x : RegIx) : Statement (.storeBcd x) := fun _ => by
  refine (decodeWord_groupF (fieldGroup_packI 0xF#4 _ _)).trans ?_
  simp [decodeGroupF]

theorem storeRegs (x : RegIx) : Statement (.storeRegs x) := fun _ => by
  refine (decodeWord_groupF (fieldGroup_packI 0xF#4 _ _)).trans ?_
  simp [decodeGroupF]

theorem loadRegs (x : RegIx) : Statement (.loadRegs x) := fun _ => by
  refine (decodeWord_groupF (fieldGroup_packI 0xF#4 _ _)).trans ?_
  simp [decodeGroupF]

theorem rsv0 (x : Nibble) (nn : Byte) : Statement (.rsv0 x nn) := fun h => by
  have hn := by simpa [Instr.wellFormed] using h
  refine (decodeWord_group0 (fieldGroup_packI 0x0#4 _ _)).trans ?_
  rw [decodeGroup0_reserved (by simpa using hn)]
  simp

theorem rsv8 (x y n : Nibble) : Statement (.rsv8 x y n) := fun h => by
  have hn := by simpa [Instr.wellFormed] using h
  refine (decodeWord_group8 (fieldGroup_packR 0x8#4 _ _ _)).trans ?_
  rw [decodeGroup8_reserved (by simpa using hn)]
  simp

theorem rsvE (x : Nibble) (nn : Byte) : Statement (.rsvE x nn) := fun h => by
  have hn := by simpa [Instr.wellFormed] using h
  refine (decodeWord_groupE (fieldGroup_packI 0xE#4 _ _)).trans ?_
  rw [decodeGroupE_reserved (by simpa using hn)]
  simp

theorem nopF (x : Nibble) (nn : Byte) : Statement (.nopF x nn) := fun h => by
  have hn := by simpa [Instr.wellFormed] using h
  refine (decodeWord_groupF (fieldGroup_packI 0xF#4 _ _)).trans ?_
  rw [decodeGroupF_unknown (by simpa using hn)]
  simp

end Sys2Proof.Laws.RoundTrip
end

