-- ==== Sys2Proof/Laws/Sprite.lean ====
section
/-! SUPPORT. What drawing one pixel, one row and n rows can change. -/

namespace Sys2Proof.Machine

/-- Drawing a pixel changes at most VF, F, P and RD. -/
theorem State.drawPixel_frame (s : State) (x : Fin 64) (y : Fin 32) (bit : Bool) :
    ∃ v fb pend rd, s.drawPixel x y bit = { s with v := v, fb := fb, pend := pend, rd := rd } := by
  cases h : s.fb.cell x y <;> cases bit <;> exact ⟨_, _, _, _, by simp only [State.drawPixel, h]; rfl⟩

/-- A cell after a pixel: set when the sprite bit hits it, otherwise as before. -/
theorem State.drawPixel_cell (s : State) (x : Fin 64) (y : Fin 32) (bit : Bool) (x' : Fin 64) (y' : Fin 32) :
    (s.drawPixel x y bit).fb.cell x' y' = if x' = x ∧ y' = y then s.fb.cell x y || bit else s.fb.cell x' y' := by
  by_cases hc : x' = x ∧ y' = y
  · obtain ⟨rfl, rfl⟩ := hc
    cases h : s.fb.cell x' y' <;> cases bit <;> simp [State.drawPixel, h, Grid.cell_setCell]
  · cases h : s.fb.cell x y <;> cases bit <;> simp [State.drawPixel, h, hc, Grid.cell_setCell]

/-- A pending mark after a pixel: made where the exclusive or is 0, otherwise as before. -/
theorem State.drawPixel_pend (s : State) (x : Fin 64) (y : Fin 32) (bit : Bool) (x' : Fin 64) (y' : Fin 32) :
    (s.drawPixel x y bit).pend.cell x' y' =
      if x' = x ∧ y' = y then s.pend.cell x y || s.fb.cell x y == bit else s.pend.cell x' y' := by
  by_cases hc : x' = x ∧ y' = y
  · obtain ⟨rfl, rfl⟩ := hc
    cases h : s.fb.cell x' y' <;> cases bit <;> simp [State.drawPixel, h, Grid.cell_setCell]
  · cases h : s.fb.cell x y <;> cases bit <;> simp [State.drawPixel, h, hc, Grid.cell_setCell]

/-- RD after a pixel: raised by a sprite bit 1. -/
theorem State.drawPixel_rd (s : State) (x : Fin 64) (y : Fin 32) (bit : Bool) : (s.drawPixel x y bit).rd = (s.rd || bit) := by
  cases h : s.fb.cell x y <;> cases bit <;> simp [State.drawPixel, h]

/-- The registers after a pixel: VF is 1 after a collision, and nothing else changes. -/
theorem State.drawPixel_reg (s : State) (x : Fin 64) (y : Fin 32) (bit : Bool) (k : RegIx) :
    (s.drawPixel x y bit).reg k = if k = VF ∧ s.fb.cell x y = true ∧ bit = true then 1 else s.reg k := by
  cases h : s.fb.cell x y <;> cases bit <;> simp [State.drawPixel, h, State.reg_setReg] <;> rfl

/-- Drawing a row changes at most VF, F, P and RD. -/
theorem State.drawRow_frame (s : State) (x0 y0 : Byte) (row : Nat) (byte : Byte) :
    ∃ v fb pend rd, s.drawRow x0 y0 row byte = { s with v := v, fb := fb, pend := pend, rd := rd } := by
  unfold State.drawRow
  generalize List.range 8 = bits
  induction bits generalizing s with
  | nil => exact ⟨_, _, _, _, rfl⟩
  | cons b rest ih =>
    obtain ⟨v1, f1, p1, r1, h1⟩ := s.drawPixel_frame (spriteColumn x0 b) (spriteRow y0 row) (byte.getLsbD (7 - b))
    obtain ⟨v, fb, pend, rd, h⟩ := ih (s.drawPixel (spriteColumn x0 b) (spriteRow y0 row) (byte.getLsbD (7 - b)))
    refine ⟨v, fb, pend, rd, ?_⟩
    rw [List.foldl_cons, h, h1]

/-- Drawing a sprite changes at most VF, F, P and RD. -/
theorem State.drawRows_frame (s : State) (x0 y0 : Byte) (base n : Nat) :
    ∃ v fb pend rd, s.drawRows x0 y0 base n = { s with v := v, fb := fb, pend := pend, rd := rd } := by
  unfold State.drawRows
  generalize List.range n = rows
  induction rows generalizing s with
  | nil => exact ⟨_, _, _, _, rfl⟩
  | cons r rest ih =>
    obtain ⟨v1, f1, p1, r1, h1⟩ := s.drawRow_frame x0 y0 r (s.readByte (base + r))
    obtain ⟨v, fb, pend, rd, h⟩ := ih (s.drawRow x0 y0 r (s.readByte (base + r)))
    refine ⟨v, fb, pend, rd, ?_⟩
    rw [List.foldl_cons, h, h1]

/-- Committing the pending clears, clearing VF and drawing changes at most VF, F, P and RD. -/
theorem State.drawSprite_frame (s : State) (x0 y0 : Byte) (base n : Nat) :
    ∃ v fb pend rd, (s.commitClears.setReg VF 0).drawRows x0 y0 base n = { s with v := v, fb := fb, pend := pend, rd := rd } := by
  obtain ⟨v, fb, pend, rd, h⟩ := (s.commitClears.setReg VF 0).drawRows_frame x0 y0 base n
  refine ⟨v, fb, pend, rd, ?_⟩
  rw [h]
  simp only [State.setReg_i, State.setReg_pc, State.setReg_stack, State.setReg_sp, State.setReg_dt, State.setReg_keys,
    State.setReg_fault, State.setReg_mem, State.setReg_font, State.setReg_schedule, State.setReg_scheduler, State.setReg_outputs,
    State.setReg_draws, State.commitClears_i, State.commitClears_pc, State.commitClears_stack, State.commitClears_sp,
    State.commitClears_dt, State.commitClears_keys, State.commitClears_fault, State.commitClears_mem, State.commitClears_font,
    State.commitClears_schedule, State.commitClears_scheduler, State.commitClears_outputs, State.commitClears_draws]

end Sys2Proof.Machine
end

