-- ==== Sys2Proof/Tests/Slice0.lean ====
section
/-! SUPPORT. The model's own tests. Expected results come from spec/95_test_vectors.md and the examples of the rules; after them one
witness per obligation that has hypotheses: `witness_X` shows states and operands that meet those of `Obligations.X`, clause by clause. -/

namespace Sys2Proof.Tests

open Sys2Proof Sys2Proof.Machine Sys2Proof.Claim

/-! ## Helpers -/

/-- RESET, then LOAD of an image (spec/95_test_vectors.md, "start state"). -/
def boot (image : List Byte) : State := load image State.reset

/-- The state with some registers set. -/
def withRegs (regs : List (RegIx × Byte)) (s : State) : State := regs.foldl (fun s r => s.setReg r.1 r.2) s

/-- What is read off the state after one step, where there is one. -/
def after {α : Type} (s : State) (view : State → α) : Option α :=
  match step s with
  | .next t => some (view t)
  | _ => none

/-- `V[0]`, `V[1]` and VF. -/
def v01f (s : State) : List Byte := [s.reg 0, s.reg 1, s.reg VF]

/-- `V[0xA]` and VF. -/
def vaf (s : State) : List Byte := [s.reg 0xA, s.reg VF]

/-! ## Well-formedness: each check refuses an ill-formed term -/

theorem test_wellFormed_rsv0 :
    (Instr.rsv0 3 0xE0).wellFormed = false ∧ (Instr.rsv0 0 0xEE).wellFormed = false ∧ (Instr.rsv0 0 0x00).wellFormed = true := by decide

theorem test_wellFormed_rsv8 :
    (Instr.rsv8 1 2 0x0).wellFormed = false ∧ (Instr.rsv8 1 2 0x7).wellFormed = false ∧ (Instr.rsv8 1 2 0xE).wellFormed = false ∧
      (Instr.rsv8 1 2 0x8).wellFormed = true := by decide

theorem test_wellFormed_rsvE :
    (Instr.rsvE 1 0x9E).wellFormed = false ∧ (Instr.rsvE 1 0xA1).wellFormed = false ∧ (Instr.rsvE 1 0x9F).wellFormed = true := by decide

theorem test_wellFormed_nopF :
    ([0x07#8, 0x0A#8, 0x15#8, 0x18#8, 0x1E#8, 0x29#8, 0x33#8, 0x55#8, 0x65#8].all fun nn => !(Instr.nopF 1 nn).wellFormed) = true ∧
      (Instr.nopF 1 0x75).wellFormed = true := by decide

/-! ## Decoding: words written out from the encodings of spec/30_encoding.md R114 -/

theorem test_decode_control :
    decodeWord 0b0000101011100000 = .cls 0xA ∧ decodeWord 0b0000111111101110 = .ret 0xF ∧ decodeWord 0b0001101010111100 = .jp 0xABC ∧
      decodeWord 0b0010001000001100 = .call 0x20C ∧ decodeWord 0b1011001000110100 = .jpV0 0x234 := by decide

theorem test_decode_skips :
    decodeWord 0b0011101001000010 = .seImm 0xA 0x42 ∧ decodeWord 0b0100101001000010 = .sneImm 0xA 0x42 ∧
      decodeWord 0b0101000100100111 = .seReg 1 2 7 ∧ decodeWord 0b1001000100101111 = .sneReg 1 2 0xF ∧
      decodeWord 0b1110001110011110 = .skp 3 ∧ decodeWord 0b1110001110100001 = .sknp 3 := by decide

theorem test_decode_register :
    decodeWord 0b0110101001000010 = .ldImm 0xA 0x42 ∧ decodeWord 0b0111000011111111 = .addImm 0 0xFF ∧
      decodeWord 0b1010001011110000 = .ldI 0x2F0 ∧ decodeWord 0b1100001100001111 = .rnd 3 0x0F := by decide

theorem test_decode_alu_plain :
    decodeWord 0b1000000100100000 = .ldReg 1 2 ∧ decodeWord 0b1000000100100001 = .orReg 1 2 ∧
      decodeWord 0b1000000100100010 = .andReg 1 2 ∧ decodeWord 0b1000000100100011 = .xorReg 1 2 := by decide

theorem test_decode_alu_flagged :
    decodeWord 0b1000000100100100 = .addReg 1 2 ∧ decodeWord 0b1000000100100101 = .subReg 1 2 ∧
      decodeWord 0b1000000111110110 = .shr 1 0xF ∧ decodeWord 0b1000000100100111 = .subnReg 1 2 ∧
      decodeWord 0b1000000100001110 = .shl 1 0 := by decide

theorem test_decode_sprite : decodeWord 0b1101011110100101 = .drw 7 0xA 5 := by decide

theorem test_decode_misc :
    decodeWord 0b1111001100000111 = .ldDt 3 ∧ decodeWord 0b1111010100001010 = .ldKey 5 ∧ decodeWord 0b1111001100010101 = .setDt 3 ∧
      decodeWord 0b1111001000011000 = .setSound 2 ∧ decodeWord 0b1111000100011110 = .addI 1 := by decide

theorem test_decode_memory :
    decodeWord 0b1111000000101001 = .ldFont 0 ∧ decodeWord 0b1111000000110011 = .storeBcd 0 ∧
      decodeWord 0b1111001001010101 = .storeRegs 2 ∧ decodeWord 0b1111001001100101 = .loadRegs 2 := by decide

/-- The fallback rows (spec/95_test_vectors.md section 2.1). -/
theorem test_decode_fallback :
    decodeWord 0x0000 = .rsv0 0 0 ∧ decodeWord 0x00E1 = .rsv0 0 0xE1 ∧ decodeWord 0x8128 = .rsv8 1 2 8 ∧
      decodeWord 0xE000 = .rsvE 0 0 ∧ decodeWord 0xF185 = .nopF 1 0x85 := by decide

/-- Big-endian, and the bytes after the instruction are left (R86). -/
theorem test_decode_bytes : decode [0xD7, 0xA5, 0x12] = .ok (.drw 7 0xA 5, [0x12]) := rfl

theorem test_decode_truncated : decode [0xD7] = .error .truncated ∧ decode [] = .error .truncated := ⟨rfl, rfl⟩

theorem test_encodeBytes : encodeBytes (.drw 7 0xA 5) = [0xD7, 0xA5] ∧ encodeBytes (.cls 0) = [0x00, 0xE0] := by decide

theorem test_decodeTableWord : decodeTableWord 16 0xF355 = some (.storeRegs 3) := by decide

/-- The host's placement runs the placed instruction at the next step. -/
theorem test_withFetchWord : after (State.reset.withFetchWord 16 0x6A42) (fun t => (t.reg 0xA, t.pc)) = some (0x42, 0x202) := by decide

/-! ## Control flow (section 2.3) -/

/-- `00E0`: F is cleared, P and RD stay. -/
theorem test_cls :
    after { boot [0x00, 0xE0] with fb := Grid.clear.setCell 3 4 true, pend := Grid.clear.setCell 3 4 true }
      (fun t => (t.fb.cell 3 4, t.pend.cell 3 4, t.rd, t.pc)) = some (false, true, false, 0x202) := by decide

/-- `0FEE` with one entry. -/
theorem test_ret :
    after { boot [0x0F, 0xEE] with sp := 1, stack := (Vector.replicate 16 0).set 0 0x0206 } (fun t => (t.sp.val, t.pc)) =
      some (0, 0x0206) := by decide

/-- `00EE` on the empty stack: Fault(3, 0x200, 0). -/
theorem test_ret_underflow :
    after (boot [0x00, 0xEE]) (fun t => (t.stepResult, t.pc, t.sp.val)) = some (.fault (.stackUnderflow 0x200), 0x200, 0) := by decide

/-- `1ABC`. -/
theorem test_jp : after (boot [0x1A, 0xBC]) (·.pc) = some 0x0ABC := by decide

/-- `2F00`. -/
theorem test_call :
    after (boot [0x2F, 0x00]) (fun t => (t.stack[0], t.sp.val, t.pc)) = some (0x0202, 1, 0x0F00) := by decide

/-- The 17th call: Fault(2, 0x200, 0). -/
theorem test_call_overflow :
    after { boot [0x22, 0x00] with sp := 16 } (fun t => (t.stepResult, t.pc, t.sp.val)) = some (.fault (.stackOverflow 0x200), 0x200, 16) := by
  decide

/-- `BFFF` with `V[0] = FF`: not masked. -/
theorem test_jpV0 : after (withRegs [(0, 0xFF)] (boot [0xBF, 0xFF])) (·.pc) = some 0x10FE := by decide

theorem test_seImm :
    after (withRegs [(0, 0x42)] (boot [0x30, 0x42])) (·.pc) = some 0x204 ∧
      after (withRegs [(0, 0x41)] (boot [0x30, 0x42])) (·.pc) = some 0x202 := by decide

theorem test_sneImm :
    after (withRegs [(0, 0x42)] (boot [0x40, 0x42])) (·.pc) = some 0x202 ∧
      after (withRegs [(0, 0x41)] (boot [0x40, 0x42])) (·.pc) = some 0x204 := by decide

/-- `501F`: the low nibble is ignored. -/
theorem test_seReg :
    after (withRegs [(0, 7), (1, 7)] (boot [0x50, 0x1F])) (·.pc) = some 0x204 ∧
      after (withRegs [(0, 7), (1, 8)] (boot [0x50, 0x10])) (·.pc) = some 0x202 := by decide

theorem test_sneReg :
    after (withRegs [(0, 7), (1, 7)] (boot [0x90, 0x10])) (·.pc) = some 0x202 ∧
      after (withRegs [(0, 7), (1, 8)] (boot [0x90, 0x17])) (·.pc) = some 0x204 := by decide

/-- `E09E` with `V[0] = 05` and 15: the whole byte is the code. -/
theorem test_skp :
    after (withRegs [(0, 0x05)] { boot [0xE0, 0x9E] with keys := 0x0020 }) (·.pc) = some 0x204 ∧
      after (withRegs [(0, 0x15)] { boot [0xE0, 0x9E] with keys := 0x0020 }) (·.pc) = some 0x202 := by decide

theorem test_sknp :
    after (withRegs [(0, 0x05)] { boot [0xE0, 0xA1] with keys := 0x0020 }) (·.pc) = some 0x202 ∧
      after (withRegs [(0, 0x15)] { boot [0xE0, 0xA1] with keys := 0xFFFF }) (·.pc) = some 0x204 := by decide

theorem test_rsv0 : after (boot [0x01, 0x23]) (fun t => (t.pc, t.v)) = some (0x202, Vector.replicate 16 0) := by decide

theorem test_rsvE :
    after (withRegs [(1, 5)] { boot [0xE1, 0x9F] with keys := 0x0020 }) (·.pc) = some 0x202 := by decide

/-! ## Register group (section 2.4) -/

theorem test_ldImm : after (boot [0x6A, 0x42]) (fun t => (t.reg 0xA, t.pc)) = some (0x42, 0x202) := by decide

/-- `7A02`: wraps, no flag. -/
theorem test_addImm : after (withRegs [(0xA, 0xFF)] (boot [0x7A, 0x02])) vaf = some [0x01, 0x00] := by decide

theorem test_ldI : after (boot [0xAF, 0xFF]) (·.i) = some 0x0FFF := by decide

/-- `C30F` with r = A7, `C500` with r = FF (section 2.4). -/
theorem test_rnd : (rndWith 0xA7 3 0x0F State.reset).reg 3 = 0x07 ∧ (rndWith 0xFF 5 0x00 State.reset).reg 5 = 0x00 := by decide

/-! ## Arithmetic and logic (sections 2.5 and 2.6) -/

theorem test_ldReg : after (withRegs [(0, 0x12), (1, 0x34), (VF, 0x77)] (boot [0x80, 0x10])) v01f = some [0x34, 0x34, 0x77] := by decide

theorem test_orReg : after (withRegs [(0, 0xF0), (1, 0x0F), (VF, 0x77)] (boot [0x80, 0x11])) v01f = some [0xFF, 0x0F, 0x77] := by decide

theorem test_andReg : after (withRegs [(0, 0xF3), (1, 0x3C), (VF, 0x77)] (boot [0x80, 0x12])) v01f = some [0x30, 0x3C, 0x77] := by decide

theorem test_xorReg : after (withRegs [(0, 0xFF), (1, 0x0F), (VF, 0x77)] (boot [0x80, 0x13])) v01f = some [0xF0, 0x0F, 0x77] := by decide

theorem test_addReg : after (withRegs [(0, 0xFF), (1, 0x01), (VF, 0x77)] (boot [0x80, 0x14])) v01f = some [0x00, 0x01, 0x01] := by decide

/-- `8FA4` and `8AF4`: VF as an operand. -/
theorem test_addReg_vf :
    after (withRegs [(VF, 0xF0), (0xA, 0x20)] (boot [0x8F, 0xA4])) vaf = some [0x20, 0x21] ∧
      after (withRegs [(VF, 0x20), (0xA, 0xF0)] (boot [0x8A, 0xF4])) vaf = some [0xF1, 0x01] := by decide

/-- Equal operands: the flag is 0. -/
theorem test_subReg :
    after (withRegs [(0, 0x0F), (1, 0x10)] (boot [0x80, 0x15])) v01f = some [0xFF, 0x10, 0x00] ∧
      after (withRegs [(0, 0x33), (1, 0x33), (VF, 0x77)] (boot [0x80, 0x15])) v01f = some [0x00, 0x33, 0x00] := by decide

theorem test_subReg_vf :
    after (withRegs [(VF, 0x30), (0xA, 0x20)] (boot [0x8F, 0xA5])) vaf = some [0x20, 0xE1] ∧
      after (withRegs [(VF, 0x20), (0xA, 0x30)] (boot [0x8A, 0xF5])) vaf = some [0x2F, 0x01] := by decide

/-- Y is neither read nor written. -/
theorem test_shr : after (withRegs [(0, 0x93), (1, 0x55), (VF, 0x77)] (boot [0x80, 0x16])) v01f = some [0x49, 0x55, 0x01] := by decide

theorem test_shr_vf : after (withRegs [(VF, 0x93)] (boot [0x8F, 0xA6])) vaf = some [0x00, 0x00] := by decide

/-- The result goes to `V[Y]`. -/
theorem test_subnReg : after (withRegs [(0, 0x10), (1, 0x0F), (VF, 0x77)] (boot [0x80, 0x17])) v01f = some [0x10, 0xFF, 0x00] := by decide

theorem test_subnReg_vf :
    after (withRegs [(VF, 0x20), (0xA, 0x30)] (boot [0x8F, 0xA7])) vaf = some [0x2F, 0x01] ∧
      after (withRegs [(VF, 0x30), (0xA, 0x20)] (boot [0x8A, 0xF7])) vaf = some [0x20, 0xE1] := by decide

theorem test_shl : after (withRegs [(0, 0x93), (1, 0x55)] (boot [0x80, 0x1E])) v01f = some [0x26, 0x55, 0x01] := by decide

theorem test_shl_vf : after (withRegs [(VF, 0x93)] (boot [0x8F, 0xAE])) vaf = some [0x00, 0x02] := by decide

theorem test_rsv8 : after (withRegs [(0, 0x12), (1, 0x34), (VF, 0x77)] (boot [0x80, 0x18])) v01f = some [0x12, 0x34, 0x77] := by decide

/-! ## Sprite drawing (section 2.7) -/

/-- Vector 2, its first row: columns wrap; a row below 31 is row 0. -/
theorem test_drw_wraps :
    after (withRegs [(0, 0x3F), (1, 0x1F)] { boot [0xD0, 0x11, 0xC0] with i := 0x202 })
      (fun t => (t.fb.cell 63 31, t.fb.cell 0 31, t.fb.cell 1 31, t.reg VF)) = some (true, true, false, 0) ∧
      spriteRow 0x1F 1 = 0 := by decide

/-- S6, operation 4: the second draw collides and defers the clear. -/
theorem test_drw_collision :
    after { boot [0xD0, 0x01, 0x80] with i := 0x202, fb := Grid.clear.setCell 0 0 true }
      (fun t => (t.fb.cell 0 0, t.pend.cell 0 0, t.reg VF)) = some (true, true, 1) := by decide

/-! ## Key, timer and miscellaneous (section 2.8) -/

theorem test_ldDt : after { boot [0xF3, 0x07] with dt := 0x2A } (·.reg 3) = some 0x2A := by decide

/-- `F50A` with keys 3, 7 and 15 held; with none, a whole poll changes nothing. -/
theorem test_ldKey :
    after { boot [0xF5, 0x0A] with keys := 0x8088 } (fun t => (t.reg 5, t.pc)) = some (0x03, 0x202) ∧
      after (boot [0xF5, 0x0A]) (fun t => (t.reg 5, t.pc)) = some (0x00, 0x200) := by decide

theorem test_setDt : after (withRegs [(3, 60)] (boot [0xF3, 0x15])) (·.dt) = some 60 := by decide

theorem test_setSound : after (withRegs [(2, 0x1E)] (boot [0xF2, 0x18])) (·.outputs) = some [.sound 0x1E] := by decide

/-- `F11E` past 0xFFF and past 0xFFFF. -/
theorem test_addI :
    after (withRegs [(1, 1), (VF, 0x77)] { boot [0xF1, 0x1E] with i := 0x0FFF }) (fun t => (t.i, t.reg VF)) = some (0x1000, 0x77) ∧
      after (withRegs [(1, 0xFF)] { boot [0xF1, 0x1E] with i := 0xFFF0 }) (·.i) = some 0x00EF := by decide

theorem test_ldFont :
    after (withRegs [(0, 0x0A)] (boot [0xF0, 0x29])) (·.i) = some 0x0032 ∧
      after (withRegs [(0, 0xFF)] (boot [0xF0, 0x29])) (·.i) = some 0x04FB := by decide

/-- `F033` at the top of memory. -/
theorem test_storeBcd :
    after (withRegs [(0, 0xEA)] { boot [0xF0, 0x33] with i := 0xFFD })
      (fun t => [t.readByte 0xFFD, t.readByte 0xFFE, t.readByte 0xFFF]) = some [2, 3, 4] := by decide

/-- One byte too high: Fault(1, 0x200, 0x1000), and nothing written. -/
theorem test_storeBcd_fault :
    after (withRegs [(0, 0xEA)] { boot [0xF0, 0x33] with i := 0xFFE }) (fun t => (t.stepResult, t.readByte 0xFFE, t.pc)) =
      some (.fault (.outOfBounds 0x200 0x1000), 0, 0x200) := by decide

/-- I stays. -/
theorem test_storeRegs :
    after (withRegs [(0, 9), (1, 3), (2, 4), (3, 7)] { boot [0xF2, 0x55] with i := 0x300 })
      (fun t => ([t.readByte 0x300, t.readByte 0x301, t.readByte 0x302, t.readByte 0x303], t.i)) = some ([9, 3, 4, 0], 0x300) := by decide

/-- `F365` at `I = 0`: font glyph 0, `V[4]` unchanged. -/
theorem test_loadRegs :
    after (withRegs [(4, 0x44)] (boot [0xF3, 0x65])) (fun t => ([t.reg 0, t.reg 1, t.reg 2, t.reg 3, t.reg 4], t.i)) =
      some ([0xF0, 0x90, 0x90, 0x90, 0x44], 0) := by decide

theorem test_loadRegs_fault :
    after (withRegs [(0, 9), (1, 9)] { boot [0xF1, 0x65] with i := 0xFFF }) (fun t => (t.stepResult, t.reg 0, t.reg 1)) =
      some (.fault (.outOfBounds 0x200 0x1000), 9, 9) := by decide

theorem test_nopF : after (boot [0xF1, 0x75]) (fun t => (t.pc, t.i)) = some (0x202, 0) := by decide

/-! ## Fetch and the other operations (sections 2.2 and 2.9) -/

/-- `PC = 0xFFF`: Fault(1, 0x0FFF, 0x1000). -/
theorem test_fetch_fault :
    after { State.reset with pc := 0xFFF } (fun t => (t.stepResult, t.pc)) = some (.fault (.outOfBounds 0xFFF 0x1000), 0xFFF) := by decide

/-- The highest fetch; then PC is 0x1000. -/
theorem test_fetch_top :
    after { (State.reset.writeBytes 0xFFE [0x6A, 0x55]) with pc := 0xFFE } (fun t => (t.reg 0xA, t.pc)) = some (0x55, 0x1000) := by decide

/-- Vector 4 of section 2.9. -/
theorem test_tick :
    after { State.reset with rd := true, dt := 2, schedule := [.tick] } (fun t => (t.dt, t.rd, t.outputs.length)) =
      some (1, false, 1) := by decide

/-- Vectors 5 and 6. -/
theorem test_keys :
    after { State.reset with schedule := [.keyDown 3] } (·.keys) = some 0x0008 ∧
      after { State.reset with keys := 0x0008, schedule := [.keyUp 3] } (·.keys) = some 0x0000 ∧
      after { State.reset with schedule := [.keyUp 9] } (·.keys) = some 0x0000 := by decide

theorem test_load :
    after { State.reset with schedule := [.load [0x60, 0x01]] } (fun t => ([t.readByte 0x200, t.readByte 0x201], t.pc)) =
      some ([0x60, 0x01], 0x200) := by decide

/-- A round comes again: after its last operation the first is next. -/
theorem test_round :
    after { State.reset with schedule := [.step], scheduler := .round [.tick, .step] }
      (fun t => (t.nextOperation.1, t.nextOperation.2.schedule)) = some (.tick, [.step]) := by decide

/-- An unlisted address of the font area reads as the font of the machine, whatever that is. -/
theorem test_font : State.readByte { State.reset with font := Vector.replicate 80 0xAB } 0x4F = 0xAB := by decide

/-- Vector 2: RESET leaves the halted state. -/
theorem test_reset_operation :
    after { State.reset with fault := ⟨.stackUnderflow, 0x200, 0⟩, keys := 2, schedule := [.reset] } (fun t => (t.fault.code, t.keys)) =
      some (.none, 0) := by decide

/-- Vector 10. -/
theorem test_reset_memory :
    (List.range 5).map State.reset.readByte = [0xF0, 0x90, 0x90, 0x90, 0xF0] ∧
      (List.range 5).map (fun k => State.reset.readByte (0x4B + k)) = [0xF0, 0x80, 0xF0, 0x80, 0x80] ∧
      State.reset.readByte 0x50 = 0 ∧ State.reset.readByte 0xFFF = 0 := by decide

/-! ## Witnesses -/

/-- The witnesses' state: registers, keys and timer set, one return address, one key held. -/
def w : State :=
  { withRegs [(0, 0x10), (1, 0x20), (2, 0x20), (VF, 0x05)] State.reset with sp := 1, dt := 2, keys := 0x0020, i := 0x300 }

/-- The answer is some next state. -/
def isNext (r : Result) : Bool := match r with | .next _ => true | _ => false

theorem isNext_iff (r : Result) : isNext r = true ↔ ∃ t, r = .next t := by cases r <;> simp [isNext]

theorem witness_DecodeEncodeInverse :
    (Instr.drw 0xF 0 0xF).wellFormed = true ∧ (Instr.rsv8 0 0xF 0xF).wellFormed = true ∧ (Instr.cls 0xF).wellFormed = true := by decide

/-- The STEP is next for each reason, and for the last address that can be fetched from. -/
theorem witness_StepRunsDecodedInstruction :
    let s : State := { State.reset with pc := 0xFFE }
    ComesNext s .step s ∧ ComesNext { s with schedule := [.step, .tick] } .step { s with schedule := [.tick] } ∧
      ComesNext { s with scheduler := .round [.step, .tick] } .step { s with scheduler := .round [.step, .tick], schedule := [.tick] } ∧
      s.fault.code = .none ∧ s.pc.toNat ≤ 0xFFE ∧
      decode [s.readByte s.pc.toNat, s.readByte (s.pc.toNat + 1)] = .ok (.rsv0 0 0, []) :=
  ⟨.inr ⟨rfl, .inr (.inl ⟨rfl, rfl, rfl⟩)⟩, .inl ⟨_, rfl, rfl⟩, .inr ⟨rfl, .inl ⟨_, rfl, rfl⟩⟩, rfl, by decide, rfl⟩

theorem witness_FetchOutOfBounds :
    let s : State := { State.reset with pc := 0xFFF }
    ComesNext s .step s ∧ s.fault.code = .none ∧ 0xFFE < s.pc.toNat :=
  ⟨.inr ⟨rfl, .inr (.inl ⟨rfl, rfl, rfl⟩)⟩, rfl, by decide⟩

/-- Each fault that can be latched. -/
theorem witness_HaltedStepChangesNothing :
    let s : FaultCode → State := fun c => { State.reset with fault := ⟨c, 0x200, 0⟩ }
    (∀ c, ComesNext (s c) .step (s c)) ∧ (s .outOfBounds).fault.code ≠ .none ∧ (s .stackOverflow).fault.code ≠ .none ∧
      (s .stackUnderflow).fault.code ≠ .none :=
  ⟨fun _ => .inr ⟨rfl, .inr (.inl ⟨rfl, rfl, rfl⟩)⟩, by decide, by decide, by decide⟩

/-- The agents' choice comes next, whatever it is. -/
theorem witness_ComesNext_free :
    ComesNext { State.reset with scheduler := .free 7 } (Config.freeOperation 7) { State.reset with scheduler := .free 8 } :=
  .inr ⟨rfl, .inr (.inr ⟨7, rfl, rfl, rfl⟩)⟩

theorem witness_StepKeepsInvariant : State.reset.Inv ∧ ∃ t, step State.reset = .next t :=
  ⟨⟨reset_memory_wf, by decide, by decide, by decide, by decide, by decide⟩, (isNext_iff _).mp (by decide)⟩

/-- A return on the empty stack latches a fault, and a no-operation latches none. -/
theorem witness_FaultsArePrecise :
    let s : State := boot [0x00, 0xEE]
    s.fault.code = .none ∧ ComesNext s .step s ∧ (∃ t, step s = .next t ∧ t.fault.code ≠ .none) ∧
      ∃ t, step State.reset = .next t ∧ t.fault.code = .none :=
  ⟨by decide, .inr ⟨by decide, .inr (.inl ⟨by decide, rfl, rfl⟩)⟩, ⟨_, rfl, by decide⟩, ⟨_, rfl, by decide⟩⟩

/-- Each cause at its boundary. -/
theorem witness_FaultCauses :
    w.fault.code = .none ∧ isNext (exec (.drw 0 0 1) { w with i := 0x1000 }) = true ∧
      isNext (exec (.storeBcd 0) { w with i := 0xFFE }) = true ∧ isNext (exec (.storeRegs 1) { w with i := 0xFFF }) = true ∧
      isNext (exec (.loadRegs 1) { w with i := 0xFFF }) = true ∧ isNext (exec (.call 0) { w with sp := 16 }) = true ∧
      isNext (exec (.ret 0) { w with sp := 0 }) = true ∧ isNext (exec (.ret 0) w) = true := by decide

theorem witness_OnlyResetClearsFault :
    let s : State := { State.reset with fault := ⟨.stackUnderflow, 0x200, 0⟩, schedule := [.tick, .reset] }
    s.fault.code ≠ .none ∧ (∃ t, step s = .next t) ∧ ∀ u, ¬ComesNext s .reset u :=
  ⟨by decide, ⟨_, rfl⟩, by simp [ComesNext]⟩

theorem witness_TickEffect :
    ComesNext { w with schedule := [.tick, .step], rd := true } .tick { w with schedule := [.step], rd := true } ∧
      ComesNext { w with scheduler := .round [.tick] } .tick { w with scheduler := .round [.tick], schedule := [] } ∧ w.rd = false :=
  ⟨.inl ⟨_, rfl, rfl⟩, .inr ⟨by decide, .inl ⟨_, rfl, rfl⟩⟩, by decide⟩

theorem witness_TicksCountDownAndEmitOnce :
    let s : State := { w with schedule := [.tick, .tick, .step], rd := true }
    s.schedule = List.replicate 2 .tick ++ [.step] ∧ w.schedule = List.replicate 0 .tick ++ [] ∧
      ({ w with scheduler := .round [.tick] } : State).schedule = [] ∧
      ({ w with scheduler := .round [.tick] } : State).scheduler = .round [.tick] := ⟨rfl, rfl, rfl, rfl⟩

theorem witness_KeyOperations :
    ComesNext { w with schedule := [.keyDown 0xF] } (.keyDown 0xF) { w with schedule := [] } ∧
      ComesNext { w with schedule := [.keyUp 0, .step] } (.keyUp 0) { w with schedule := [.step] } :=
  ⟨.inl ⟨_, rfl, rfl⟩, .inl ⟨_, rfl, rfl⟩⟩

/-- The largest image, the smallest, and one byte too many. -/
theorem witness_LoadEffect :
    let image : Nat → List Byte := fun n => List.replicate n 0xAA
    (∀ n, ComesNext { w with schedule := [.load (image n)] } (.load (image n)) { w with schedule := [] }) ∧
      (image 3584).length ≤ 3584 ∧ (image 0).length ≤ 3584 ∧ 3584 < (image 3585).length := by
  refine ⟨fun _ => .inl ⟨_, rfl, rfl⟩, ?_, ?_, ?_⟩ <;> rw [List.length_replicate] <;> omega

/-- Another font than the default, and the last address of memory. -/
theorem witness_ResetOperation :
    let s : State := { w with schedule := [.reset, .step], font := Vector.replicate 80 0xFF }
    ComesNext s .reset { s with schedule := [.step] } ∧ s.font ≠ defaultFont ∧ 0xFFF ≤ 0xFFF :=
  ⟨.inl ⟨_, rfl, rfl⟩, by decide, by decide⟩

/-! Words for the encoding clauses; the last word of each mask's range where operand bits are free. -/

theorem witness_ClsClearsFramebuffer : (0x0FE0 : Word) &&& 0xF0FF = 0x00E0 := by decide

theorem witness_RetPopsOrUnderflows :
    (0x0FEE : Word) &&& 0xF0FF = 0x00EE ∧ 0 < w.sp.val ∧ 0 < ({ w with sp := 16 } : State).sp.val ∧ ({ w with sp := 0 } : State).sp.val = 0 := by
  decide

theorem witness_JpSetsPc : (0x1FFF : Word) &&& 0xF000 = 0x1000 := by decide

theorem witness_CallPushesOrOverflows :
    (0x2FFF : Word) &&& 0xF000 = 0x2000 ∧ ({ w with sp := 15 } : State).sp.val < 16 ∧ ({ w with sp := 16 } : State).sp.val = 16 := by decide

theorem witness_CallThenRetReturns : ({ w with sp := 15 } : State).sp.val < 16 ∧ w.sp = w.sp ∧ w.stack = w.stack := by decide

theorem witness_JpV0AddsOffset : (0xBFFF : Word) &&& 0xF000 = 0xB000 := by decide

/-- A skip taken and one not taken. -/
theorem witness_SkipIfEqualImmediate : (0x3FFF : Word) &&& 0xF000 = 0x3000 ∧ w.reg 0 = 0x10 ∧ ¬w.reg 0 = 0x11 := by decide

theorem witness_SkipsByPolarity :
    (0x4FFF : Word) &&& 0xF000 = 0x4000 ∧ (0x5FFF : Word) &&& 0xF000 = 0x5000 ∧ (0x9FFF : Word) &&& 0xF000 = 0x9000 ∧
      w.reg 0 ≠ 0x11 ∧ ¬w.reg 0 ≠ 0x10 ∧ w.reg 1 = w.reg 2 ∧ w.reg 0 ≠ w.reg 1 := by decide

/-- A held key, a free key, and a byte that is no key. -/
theorem witness_KeySkips :
    (0xEF9E : Word) &&& 0xF0FF = 0xE09E ∧ (0xEFA1 : Word) &&& 0xF0FF = 0xE0A1 ∧
      (∃ k : Fin 16, (w.reg VF).toNat = k.val ∧ w.keys.getLsbD k.val = true) ∧
      (¬∃ k : Fin 16, (w.reg 5).toNat = k.val ∧ w.keys.getLsbD k.val = true) ∧
      ¬∃ k : Fin 16, (w.reg 0).toNat = k.val ∧ w.keys.getLsbD k.val = true := by decide

theorem witness_ReservedWordsDoNothing :
    ((0x00FF : Word) &&& 0xF000 = 0x0000 ∧ fieldNN 0x00FF ≠ 0xE0 ∧ fieldNN 0x00FF ≠ 0xEE) ∧
      ((0x8008 : Word) &&& 0xF000 = 0x8000 ∧ 7 < (fieldN 0x8008).toNat ∧ fieldN 0x8008 ≠ 0xE) ∧
      ((0xE000 : Word) &&& 0xF000 = 0xE000 ∧ fieldNN 0xE000 ≠ 0x9E ∧ fieldNN 0xE000 ≠ 0xA1) := by decide

theorem witness_UnknownSubcodesIgnored :
    (0xFFFF : Word) &&& 0xF000 = 0xF000 ∧
      fieldNN 0xFFFF ∉ [0x07#8, 0x0A#8, 0x15#8, 0x18#8, 0x1E#8, 0x29#8, 0x33#8, 0x55#8, 0x65#8] := by decide

/-- `JP 200` at 0x200. -/
theorem witness_FinishedIsFixedPoint : (boot [0x12, 0x00]).finished ∧ ComesNext (boot [0x12, 0x00]) .step (boot [0x12, 0x00]) :=
  ⟨⟨by decide, by decide, 0x200, by decide, by decide⟩, .inr ⟨by decide, .inr (.inl ⟨by decide, rfl, rfl⟩)⟩⟩

theorem witness_LoadImmediate : (0x6FFF : Word) &&& 0xF000 = 0x6000 := by decide

theorem witness_AddImmediateWraps : (0x7FFF : Word) &&& 0xF000 = 0x7000 := by decide

theorem witness_LoadIndex : (0xAFFF : Word) &&& 0xF000 = 0xA000 := by decide

theorem witness_RandomUnderMask : (0xCFFF : Word) &&& 0xF000 = 0xC000 := by decide

theorem witness_UnflaggedAlu :
    (0x8FF0 : Word) &&& 0xF00F = 0x8000 ∧ (0x8FF1 : Word) &&& 0xF00F = 0x8001 ∧ (0x8FF2 : Word) &&& 0xF00F = 0x8002 ∧
      (0x8FF3 : Word) &&& 0xF00F = 0x8003 := by decide

theorem witness_AddWithCarry : (0x8FF4 : Word) &&& 0xF00F = 0x8004 ∧ (0 : RegIx) ≠ VF := by decide

theorem witness_SubtractStrictFlag : (0x8FF5 : Word) &&& 0xF00F = 0x8005 ∧ (0 : RegIx) ≠ VF := by decide

theorem witness_ShiftRight : (0x8FF6 : Word) &&& 0xF00F = 0x8006 ∧ (0 : RegIx) ≠ VF := by decide

theorem witness_ReverseSubtractIntoY : (0x8FF7 : Word) &&& 0xF00F = 0x8007 ∧ (0 : RegIx) ≠ VF := by decide

theorem witness_ShiftLeft : (0x8FFE : Word) &&& 0xF00F = 0x800E ∧ (0 : RegIx) ≠ VF := by decide

/-- Both operands plain, either one VF, both VF. -/
theorem witness_FlaggedResultTable :
    w.reg 0 = 0x10 ∧ w.reg 1 = 0x20 ∧ w.reg VF = 0x05 ∧ (0 : RegIx) ≠ VF ∧ (1 : RegIx) ≠ VF ∧ VF = VF := by decide

/-- No rows; the last row at 0xFFF; one row too many; a pixel that collides, one that does not, and a cell under no pixel. -/
theorem witness_DrawSprite :
    (0xDFFF : Word) &&& 0xF000 = 0xD000 ∧ ((0 : Nibble).toNat = 0) ∧ (0xFFC : Word).toNat + (4 : Nibble).toNat - 1 ≤ 0xFFF ∧
      (0 < (5 : Nibble).toNat ∧ 0xFFF < (0xFFC : Word).toNat + (5 : Nibble).toNat - 1) := by decide

theorem witness_DrawSprite_pixels :
    let s : State := { boot [0x80, 0x40] with i := 0x200, fb := Grid.clear.setCell 0 0 true }
    PixelAt s 0 0 2 0 0 0 0 ∧ effective s 0 0 = true ∧ spriteBit s 0 0 = true ∧ PixelAt s 0 0 2 1 1 1 1 ∧ effective s 1 1 = false ∧
      spriteBit s 1 1 = true ∧ ¬∃ row bit, PixelAt s 0 0 2 row bit 9 9 := by
  intro s
  have h0 : s.reg 0 = 0 := by decide
  refine ⟨⟨by decide, by decide, by decide, by decide⟩, by decide, by decide, ⟨by decide, by decide, by decide, by decide⟩, by decide,
    by decide, ?_⟩
  rintro ⟨row, bit, -, h, hx, -⟩
  simp [h0] at hx
  omega

/-- No bit of the sprite is set, so nothing collides. -/
theorem witness_DrawSprite_blank :
    ¬∃ row bit cx cy, PixelAt State.reset 0 0 0 row bit cx cy ∧ effective State.reset cx cy = true ∧ spriteBit State.reset row bit = true := by
  rintro ⟨row, bit, cx, cy, ⟨h, -⟩, -⟩
  exact absurd h (by simp)

theorem witness_DrawTwiceRestoresEffectiveCells :
    (0 : RegIx) ≠ VF ∧ (1 : RegIx) ≠ VF ∧ w.i.toNat + (5 : Nibble).toNat - 1 ≤ 0xFFF := by decide

theorem witness_ErasedCellClearsAtNextDraw :
    let s : State := { boot [0x80] with i := 0x200, fb := Grid.clear.setCell 0 0 true }
    s.i.toNat + (1 : Nibble).toNat - 1 ≤ 0xFFF ∧ PixelAt s 0 0 1 0 0 0 0 ∧ effective s 0 0 = true ∧ spriteBit s 0 0 = true ∧
      (¬∃ row bit, PixelAt s 0 0 0 row bit 0 0 ∧ spriteBit s row bit = true) ∧ ((0 : Nibble).toNat = 0) := by
  refine ⟨by decide, ⟨by decide, by decide, by decide, by decide⟩, by decide, by decide, ?_, rfl⟩
  rintro ⟨row, bit, ⟨h, -⟩, -⟩
  exact absurd h (by simp)

/-- A mark over the clear cell (3, 4). -/
theorem witness_DeadMarksUnobservable :
    SameButDeadMarks State.reset { State.reset with pend := Grid.clear.setCell 3 4 true } ∧ ∃ t, step State.reset = .next t := by
  refine ⟨⟨rfl, fun x y h => ?_⟩, (isNext_iff _).mp (by decide)⟩
  simp [State.reset] at h

theorem witness_ReadDelayTimer : (0xFF07 : Word) &&& 0xF0FF = 0xF007 := by decide

theorem witness_WaitForKeyTakesLowest :
    (0xFF0A : Word) &&& 0xF0FF = 0xF00A ∧ ({ w with keys := 0x8000 } : State).keys.getLsbD 15 = true ∧
      (∀ j < 15, ({ w with keys := 0x8000 } : State).keys.getLsbD j = false) ∧ w.keys.getLsbD 5 = true ∧
      ∀ j < 5, w.keys.getLsbD j = false := by decide

/-- `FF0A` at the last address that can be fetched from. -/
theorem witness_WaitForKeyPolls :
    let s : State := { State.reset.writeBytes 0xFFE [0xFF, 0x0A] with pc := 0xFFE }
    ComesNext s .step s ∧ s.fault.code = .none ∧ s.pc.toNat ≤ 0xFFE ∧ s.keys = 0 ∧ decodeWord s.fetchWord = .ldKey VF :=
  ⟨.inr ⟨by decide, .inr (.inl ⟨by decide, rfl, rfl⟩)⟩, by decide, by decide, by decide, by decide⟩

theorem witness_SetDelayTimer : (0xFF15 : Word) &&& 0xF0FF = 0xF015 := by decide

theorem witness_SoundTrigger : (0xFF18 : Word) &&& 0xF0FF = 0xF018 := by decide

theorem witness_AddToIndexWraps : (0xFF1E : Word) &&& 0xF0FF = 0xF01E := by decide

theorem witness_PointAtGlyph : (0xFF29 : Word) &&& 0xF0FF = 0xF029 := by decide

theorem witness_StoreBcd :
    (0xFF33 : Word) &&& 0xF0FF = 0xF033 ∧ (0xFFD : Word).toNat + 2 ≤ 0xFFF ∧ 0xFFF < (0xFFE : Word).toNat + 2 := by decide

theorem witness_StoreRegisters :
    (0xFF55 : Word) &&& 0xF0FF = 0xF055 ∧ (0xFF0 : Word).toNat + VF.val ≤ 0xFFF ∧ (0 : RegIx) ≤ VF ∧
      0xFFF < (0xFF1 : Word).toNat + VF.val := by decide

theorem witness_LoadRegisters :
    (0xFF65 : Word) &&& 0xF0FF = 0xF065 ∧ (0xFF0 : Word).toNat + VF.val ≤ 0xFFF ∧ (0 : RegIx) ≤ 3 ∧ (3 : RegIx) < VF ∧
      (∀ k, Element.i ≠ .reg k) ∧ 0xFFF < (0xFF1 : Word).toNat + VF.val := by decide

theorem witness_SaveRestoreRegisters : (0xFF0 : Word).toNat + VF.val ≤ 0xFFF := by decide

/-- One instruction that writes each of the elements. -/
theorem witness_WhoWritesIndexTimerPorts :
    (∃ t, exec (.ldI 0x123) w = .next t ∧ t.i ≠ w.i) ∧ (∃ t, exec (.setDt 0) w = .next t ∧ t.dt ≠ w.dt) ∧
      (∃ t, exec (.rnd 0 0) w = .next t ∧ t.draws ≠ w.draws) ∧ ∃ t, exec (.setSound 0) w = .next t ∧ t.outputs ≠ w.outputs :=
  ⟨⟨_, rfl, by decide⟩, ⟨_, rfl, by decide⟩, ⟨_, rfl, by decide⟩, ⟨_, rfl, by decide⟩⟩

/-- CLS changes F and keeps a raised RD; a sprite bit 1 on the clear screen raises RD, and the bits 0 beside it are marked in P. -/
theorem witness_WhoWritesMemoryScreenStack :
    let g := Grid.clear.setCell 3 4 true
    (∃ t, exec (.storeBcd 0) w = .next t ∧ t.mem ≠ w.mem) ∧
      (∃ t, exec (.cls 0) { w with fb := g, rd := true } = .next t ∧ t.fb ≠ g ∧ t.rd = true) ∧
      (∃ t, exec (.drw 4 4 0) { w with fb := g, pend := g } = .next t ∧ t.fb ≠ g ∧ t.pend ≠ g ∧ w.rd = false ∧ t.rd = true) ∧
      ∃ t, exec (.call 0x200) w = .next t ∧ t.sp ≠ w.sp ∧ t.stack ≠ w.stack := by
  have hne : ∀ g : Grid, g.cell 3 4 = false → g ≠ Grid.clear.setCell 3 4 true := by
    rintro _ h rfl
    simp [Grid.cell_setCell] at h
  have hset : (Grid.clear.setCell 3 4 true).cell 3 4 = true := by simp [Grid.cell_setCell]
  refine ⟨⟨_, rfl, by decide⟩, ⟨_, rfl, hne _ (Grid.cell_clear 3 4), rfl⟩,
    ⟨_, rfl, hne _ ?_, hne _ (Grid.cell_clear 3 4), rfl, ?_⟩, ⟨_, rfl, by decide, by decide⟩⟩
  · exact (Grid.cell_ofCells _ 3 4).trans (by simp [Grid.cell_setCell])
  · have h : anyCell (fun x y => (Grid.clear.setCell 3 4 true).cell x y && (Grid.clear.setCell 3 4 true).cell x y) = true :=
      (anyCell_iff _).mpr ⟨3, 4, (Bool.and_eq_true _ _).mpr ⟨hset, hset⟩⟩
    exact h

theorem witness_WhoWritesFlagRegister :
    (∃ t, exec (.addReg 0 1) w = .next t ∧ t.reg VF ≠ w.reg VF) ∧ ∃ t, exec (.ldImm VF 1) w = .next t ∧ t.reg VF ≠ w.reg VF :=
  ⟨⟨_, rfl, by decide⟩, ⟨_, rfl, by decide⟩⟩

theorem witness_CanonicalMemoryIsUnique :
    let m : Memory := [(0x200, 1), (0xFFF, 2)]
    m.wf defaultFont ∧ ∀ a, m.read defaultFont a = m.read defaultFont a := ⟨by decide, fun _ => rfl⟩

end Sys2Proof.Tests
end

section
/-! PROOFS. What an instruction can change, said once per instruction, and the statements about who writes I, DT, KEYS and the model's own
fields. -/

namespace Sys2Proof.Machine

/-! ## The frame of every instruction -/

/-- The fields of the state that the instruction can change on the way from `s` to `t`; every other field is equal. PC and FAULT stand
where the instruction can raise a fault. -/
def ExecFrame (s t : State) : Instr → Prop
  | .cls _ => t = { s with fb := t.fb }
  | .ret _ => t = { s with pc := t.pc, sp := t.sp, fault := t.fault }
  | .call _ => t = { s with pc := t.pc, stack := t.stack, sp := t.sp, fault := t.fault }
  | .jp _ | .jpV0 _ | .seImm _ _ | .sneImm _ _ | .seReg _ _ _ | .sneReg _ _ _ | .skp _ | .sknp _ => t = { s with pc := t.pc }
  | .ldImm _ _ | .addImm _ _ | .ldReg _ _ | .orReg _ _ | .andReg _ _ | .xorReg _ _ | .addReg _ _ | .subReg _ _ | .shr _ _
  | .subnReg _ _ | .shl _ _ | .ldDt _ => t = { s with v := t.v }
  | .ldKey _ => t = { s with v := t.v, pc := t.pc }
  | .rnd _ _ => t = { s with v := t.v, draws := t.draws }
  | .drw _ _ _ => t = { s with v := t.v, pc := t.pc, fb := t.fb, pend := t.pend, rd := t.rd, fault := t.fault }
  | .ldI _ | .addI _ | .ldFont _ => t = { s with i := t.i }
  | .setDt _ => t = { s with dt := t.dt }
  | .setSound _ => t = { s with outputs := t.outputs }
  | .storeBcd _ | .storeRegs _ => t = { s with pc := t.pc, fault := t.fault, mem := t.mem }
  | .loadRegs _ => t = { s with v := t.v, pc := t.pc, fault := t.fault }
  | .rsv0 _ _ | .rsv8 _ _ _ | .rsvE _ _ | .nopF _ _ => t = s

/-- A taken or refused skip changes PC at most. -/
theorem State.skipIf_frame (s : State) (taken : Bool) : s.skipIf taken = { s with pc := (s.skipIf taken).pc } := by
  cases taken <;> rfl

/-- A bounds-checked effect is the effect, or the fault with nothing of the effect. -/
theorem State.checkRange_next {s t u : State} {base : Word} {n : Nat} (h : s.checkRange base n (.next u) = .next t) :
    t = u ∨ t = s.latchFault .outOfBounds (s.pc - 2) (firstOutside base) := by
  by_cases hr : RangeOk base n
  · rw [s.checkRange_inside hr] at h
    exact .inl (Host.Outcome.next.inj h).symm
  · rw [s.checkRange_outside hr] at h
    exact .inr (Host.Outcome.next.inj h).symm

theorem execRet_frame {s t : State} (h : execRet s = .next t) : t = { s with pc := t.pc, sp := t.sp, fault := t.fault } := by
  unfold execRet at h
  by_cases hsp : 0 < s.sp.val
  · rw [s.pop_some hsp] at h
    obtain rfl := Host.Outcome.next.inj h
    rfl
  · rw [s.pop_empty (Fin.ext (by simpa using hsp))] at h
    obtain rfl := Host.Outcome.next.inj h
    rfl

theorem execCall_frame {nnn : Addr12} {s t : State} (h : execCall nnn s = .next t) :
    t = { s with pc := t.pc, stack := t.stack, sp := t.sp, fault := t.fault } := by
  unfold execCall at h
  by_cases hsp : s.sp.val < 16
  · rw [s.push_room s.pc hsp] at h
    obtain rfl := Host.Outcome.next.inj h
    rfl
  · rw [s.push_full s.pc (Fin.ext (by simp; omega))] at h
    obtain rfl := Host.Outcome.next.inj h
    rfl

theorem execLdKey_frame {x : RegIx} {s t : State} (h : execLdKey x s = .next t) : t = { s with v := t.v, pc := t.pc } := by
  unfold execLdKey at h
  split at h <;>
  · obtain rfl := Host.Outcome.next.inj h
    rfl

theorem execDrw_frame {x y : RegIx} {n : Nibble} {s t : State} (h : execDrw x y n s = .next t) :
    t = { s with v := t.v, pc := t.pc, fb := t.fb, pend := t.pend, rd := t.rd, fault := t.fault } := by
  obtain rfl | rfl := State.checkRange_next h
  · obtain ⟨v, fb, pend, rd, hd⟩ := s.drawSprite_frame (s.reg x) (s.reg y) s.i.toNat n.toNat
    rw [hd]
  · rfl

/-- A checked store of bytes, FX33's or FX55's, changes memory at most when it fits, and PC and FAULT when it does not. -/
theorem State.checkedStore_frame {s t : State} {base : Word} {n a : Nat} {bytes : List Byte}
    (h : s.checkRange base n (.next (s.writeBytes a bytes)) = .next t) : t = { s with pc := t.pc, fault := t.fault, mem := t.mem } := by
  obtain rfl | rfl := State.checkRange_next h
  · rw [State.writeBytes_frame]
  · rfl

theorem execLoadRegs_frame {x : RegIx} {s t : State} (h : execLoadRegs x s = .next t) :
    t = { s with v := t.v, pc := t.pc, fault := t.fault } := by
  obtain rfl | rfl := State.checkRange_next h <;> rfl

/-- Executing an instruction changes no field outside its frame. -/
theorem exec_frame {i : Instr} {s t : State} (h : exec i s = .next t) : ExecFrame s t i := by
  cases i with
  | ret => exact execRet_frame h
  | call => exact execCall_frame h
  | ldKey => exact execLdKey_frame h
  | drw => exact execDrw_frame h
  | storeBcd | storeRegs => exact State.checkedStore_frame h
  | loadRegs => exact execLoadRegs_frame h
  | seImm | sneImm | seReg | sneReg | skp | sknp =>
    obtain rfl := Host.Outcome.next.inj h
    exact State.skipIf_frame _ _
  | _ =>
    obtain rfl := Host.Outcome.next.inj h
    rfl

end Sys2Proof.Machine

namespace Sys2Proof.Proofs

open Sys2Proof.Machine

/-! ## Who writes what -/

/-- Settles O57: each clause is read off the frame of the instruction. -/
theorem whoWritesIndexTimerPorts : Obligations.WhoWritesIndexTimerPorts := by
  intro i s t h
  have hf := exec_frame h
  cases i with
  -- The writers: the field in the frame is one whose clause names the instruction.
  | ldI | addI | ldFont | setDt | rnd | setSound => rw [hf]; simp
  -- Every other frame leaves out the fields of the statement.
  | _ => rw [hf]; simp

/-! ## The state after RESET -/

/-- Settles O18: the grids row by row, memory as the reset contents, which list nothing; the other rows of R45 are the model's literals. -/
theorem resetState : Obligations.ResetState :=
  ⟨fun _ => Vector.getElem_replicate _, rfl, rfl, rfl, rfl, fun x y => ⟨Grid.cell_clear x y, Grid.cell_clear x y⟩, rfl, rfl, rfl, rfl,
    fun _ => rfl⟩

end Sys2Proof.Proofs
end

section
/-! PROOFS. The fetch at the start of a STEP, and the decoder against the opcode table. -/

namespace Sys2Proof.Proofs

open Sys2Proof.Machine Sys2Proof.Claim

/-! ## The operation that comes next -/

/-- What `ComesNext` names is what `State.nextOperation` computes. -/
theorem nextOperation_of_comesNext {s u : State} {op : Operation} (h : ComesNext s op u) : s.nextOperation = (op, u) := by
  obtain ⟨rest, hs, rfl⟩ | ⟨hs, ⟨rest, hr, rfl⟩ | ⟨hr, rfl, rfl⟩ | ⟨turn, hr, rfl, rfl⟩⟩ := h
  · exact State.nextOperation_waiting hs
  · exact State.nextOperation_round hs hr
  · exact State.nextOperation_steps hs hr
  · exact State.nextOperation_free hs hr

/-- The step runs the operation that comes next. -/
theorem step_of_comesNext {s u : State} {op : Operation} (h : ComesNext s op u) : step s = runOperation op u := by
  rw [step, nextOperation_of_comesNext h]

/-- Taking an operation changes the schedule and the scheduler at most. -/
theorem comesNext_frame {s u : State} {op : Operation} (h : ComesNext s op u) :
    u = { s with schedule := u.schedule, scheduler := u.scheduler } := by
  simpa only [nextOperation_of_comesNext h] using s.nextOperation_frame

/-! ## STEP on a running Machine -/

theorem stepOnce_fetched {s : State} (hrun : s.fault.code = .none) (hpc : RangeOk s.pc 2) :
    stepOnce s = exec (decodeWord s.fetchWord) { s with pc := s.pc + 2 } := by
  rw [stepOnce, if_neg (by simp [s.halted_iff, hrun]), if_pos hpc]

theorem stepOnce_outside {s : State} (hrun : s.fault.code = .none) (hpc : ¬RangeOk s.pc 2) :
    stepOnce s = .next { s with fault := ⟨.outOfBounds, s.pc, firstOutside s.pc⟩ } := by
  rw [stepOnce, if_neg (by simp [s.halted_iff, hrun]), if_neg hpc, State.latchFault]

/-- The two bytes of a fetch lie in memory exactly up to address 0xFFE (R84). -/
theorem rangeOk_two_iff (pc : Word) : RangeOk pc 2 ↔ pc.toNat ≤ 0xFFE := by
  unfold RangeOk
  omega

/-- Settles O4: the operation taken leaves the bytes at PC as they were, so the word fetched is the word decoded. -/
theorem stepRunsDecodedInstruction : Obligations.StepRunsDecodedInstruction := by
  intro s u i hnext hrun hpc hdecode
  have hi : decodeWord s.fetchWord = i := congrArg Prod.fst (Except.ok.inj hdecode)
  rw [step_of_comesNext hnext, comesNext_frame hnext]
  exact hi ▸ stepOnce_fetched hrun ((rangeOk_two_iff _).mpr hpc)

/-- Settles O5: the address reported is `firstOutside` of PC. -/
theorem fetchOutOfBounds : Obligations.FetchOutOfBounds := by
  intro s u hnext hrun hpc
  refine ⟨firstOutside s.pc, _, firstOutside_toNat s.pc, ?_, rfl, rfl⟩
  rw [step_of_comesNext hnext, comesNext_frame hnext]
  exact stepOnce_outside hrun (mt (rangeOk_two_iff _).mp (Nat.not_le.mpr hpc))

/-! ## The rows of one group of the opcode table (R114) -/

/-- The name of the first row that matches the word. -/
def firstName (rows : List OpcodeRow) (op : Word) : Option String := (rows.find? (·.selects op)).map OpcodeRow.name

/-- The table's rows of a group, in the table's order. -/
def groupRows (g : Fin 16) : List OpcodeRow := opcodeTable.filter fun r => fieldGroup r.value = g

/-- A row that looks at the group alone: format `A`, and the fallback rows. -/
def groupRow (g : Fin 16) (name : String) : OpcodeRow := ⟨name, 0xF000, packI (.ofFin g) 0#4 0#8⟩

/-- A row that looks at the group and the sub-code NN. -/
def subcodeRow (g : Fin 16) (name : String) (nn : Byte) : OpcodeRow := ⟨name, 0xF0FF, packI (.ofFin g) 0#4 nn⟩

/-- A row of group 0x8 with a sub-code N. -/
def aluRow (name : String) (n : Fin 16) : OpcodeRow := ⟨name, 0xF00F, packR (.ofFin 0x8) 0#4 0#4 (.ofFin n)⟩

theorem groupRows_0 : groupRows 0x0 = [subcodeRow 0x0 "CLS" 0xE0#8, subcodeRow 0x0 "RET" 0xEE#8, groupRow 0x0 "RSV0"] := rfl

theorem groupRows_8 :
    groupRows 0x8 =
      [aluRow "LD_Vx__Vy" 0x0, aluRow "OR_Vx__Vy" 0x1, aluRow "AND_Vx__Vy" 0x2, aluRow "XOR_Vx__Vy" 0x3, aluRow "ADD_Vx__Vy" 0x4,
        aluRow "SUB_Vx__Vy" 0x5, aluRow "SHR_Vx" 0x6, aluRow "SUBN_Vx__Vy" 0x7, aluRow "SHL_Vx" 0xE, groupRow 0x8 "RSV8"] := rfl

theorem groupRows_E : groupRows 0xE = [subcodeRow 0xE "SKP_Vx" 0x9E#8, subcodeRow 0xE "SKNP_Vx" 0xA1#8, groupRow 0xE "RSVE"] := rfl

theorem groupRows_F :
    groupRows 0xF =
      [subcodeRow 0xF "LD_Vx__DT" 0x07#8, subcodeRow 0xF "LD_Vx__K" 0x0A#8, subcodeRow 0xF "LD_DT__Vx" 0x15#8,
        subcodeRow 0xF "LD_ST__Vx" 0x18#8, subcodeRow 0xF "ADD_I__Vx" 0x1E#8, subcodeRow 0xF "LD_F__Vx" 0x29#8,
        subcodeRow 0xF "LD_B__Vx" 0x33#8, subcodeRow 0xF "LD__I___Vx" 0x55#8, subcodeRow 0xF "LD_Vx___I" 0x65#8,
        groupRow 0xF "NOPF"] := rfl

/-- Every mask of the table covers the group, so a row matches words of its own group only. -/
theorem fieldGroup_of_selects {r : OpcodeRow} {op : Word} (hr : r ∈ opcodeTable) (h : r.selects op = true) :
    fieldGroup r.value = fieldGroup op := by
  have hmask : ∀ r ∈ opcodeTable, r.mask.toNat / 4096 = 15 := by decide
  exact (fieldGroup_of_mask (eq_of_beq h) (hmask r hr)).symm

/-- The first row of the table that matches a word is the first of the word's group. -/
theorem firstName_opcodeTable (op : Word) : firstName opcodeTable op = firstName (groupRows (fieldGroup op)) op := by
  unfold firstName groupRows
  rw [List.find?_filter]
  congr 1
  apply List.find?_congr
  intro r hr
  simpa using fieldGroup_of_selects hr

/-! ## Which words of a group its rows match -/

/-- A word is the packing of its group, X and NN (R111). -/
theorem packI_fields (op : Word) : packI (.ofFin (fieldGroup op)) (nibbleX op) (fieldNN op) = op := by
  apply BitVec.eq_of_toNat_eq
  rw [toNat_packI, toNat_nibbleX, toNat_fieldNN, BitVec.toNat_ofFin, val_fieldGroup]
  omega

/-- A word is the packing of its group, X, Y and N (R111). -/
theorem packR_fields (op : Word) : packR (.ofFin (fieldGroup op)) (nibbleX op) (nibbleY op) (fieldN op) = op := by
  apply BitVec.eq_of_toNat_eq
  rw [toNat_packR, toNat_nibbleX, toNat_nibbleY, toNat_fieldN, BitVec.toNat_ofFin, val_fieldGroup]
  omega

theorem packI_and (g x g' x' : Nibble) (nn nn' : Byte) :
    packI g x nn &&& packI g' x' nn' = packI (g &&& g') (x &&& x') (nn &&& nn') :=
  BitVec.and_append.trans (congrArg (· ++ (nn &&& nn')) BitVec.and_append)

theorem packR_and (g x y n g' x' y' n' : Nibble) :
    packR g x y n &&& packR g' x' y' n' = packR (g &&& g') (x &&& x') (y &&& y') (n &&& n') :=
  BitVec.and_append.trans <| congrArg (· ++ (n &&& n')) <|
    BitVec.and_append.trans <| congrArg (· ++ (y &&& y')) BitVec.and_append

/-! The three masks of the table keep the group alone, the group with NN, and the group with N. -/

theorem and_groupMask (op : Word) : op &&& 0xF000 = packI (.ofFin (fieldGroup op)) 0#4 0#8 := by
  conv_lhs => rw [← packI_fields op]
  exact (packI_and _ _ (.allOnes 4) 0#4 _ 0#8).trans (by simp only [BitVec.and_allOnes, BitVec.and_zero])

theorem and_subcodeMask (op : Word) : op &&& 0xF0FF = packI (.ofFin (fieldGroup op)) 0#4 (fieldNN op) := by
  conv_lhs => rw [← packI_fields op]
  exact (packI_and _ _ (.allOnes 4) 0#4 _ (.allOnes 8)).trans (by simp only [BitVec.and_allOnes, BitVec.and_zero])

theorem and_aluMask (op : Word) : op &&& 0xF00F = packR (.ofFin (fieldGroup op)) 0#4 0#4 (fieldN op) := by
  conv_lhs => rw [← packR_fields op]
  exact (packR_and _ _ _ _ (.allOnes 4) 0#4 0#4 (.allOnes 4)).trans (by simp only [BitVec.and_allOnes, BitVec.and_zero])

theorem groupRow_selects {op : Word} {g : Fin 16} (hg : fieldGroup op = g) (name : String) :
    (groupRow g name).selects op = true := by
  simp only [groupRow, OpcodeRow.selects, and_groupMask, hg, beq_iff_eq]

theorem subcodeRow_selects {op : Word} {g : Fin 16} (hg : fieldGroup op = g) (name : String) (nn : Byte) :
    (subcodeRow g name nn).selects op = true ↔ fieldNN op = nn := by
  simp only [subcodeRow, OpcodeRow.selects, and_subcodeMask, hg, beq_iff_eq]
  exact ⟨fun h => by simpa using congrArg fieldNN h, fun h => by rw [h]⟩

theorem aluRow_selects {op : Word} (hg : fieldGroup op = 8) (name : String) (n : Fin 16) :
    (aluRow name n).selects op = true ↔ (fieldN op).toFin = n := by
  simp only [aluRow, OpcodeRow.selects, and_aluMask, hg, beq_iff_eq]
  exact ⟨fun h => by simpa using congrArg (fun w => (fieldN w).toFin) h, fun h => h ▸ rfl⟩

/-! ## The first row of a group, row by row -/

theorem firstName_cons (r : OpcodeRow) (rows : List OpcodeRow) (op : Word) :
    firstName (r :: rows) op = if r.selects op = true then some r.name else firstName rows op := by
  by_cases h : r.selects op = true <;> simp [firstName, h]

theorem firstName_groupRow {op : Word} {g : Fin 16} (hg : fieldGroup op = g) (name : String) (rows : List OpcodeRow) :
    firstName (groupRow g name :: rows) op = some name := by
  rw [firstName_cons, if_pos (groupRow_selects hg name)]
  rfl

theorem firstName_subcodeRow {op : Word} {g : Fin 16} (hg : fieldGroup op = g) (name : String) (nn : Byte)
    (rows : List OpcodeRow) :
    firstName (subcodeRow g name nn :: rows) op = if fieldNN op = nn then some name else firstName rows op := by
  rw [firstName_cons]
  simp only [subcodeRow_selects hg]
  rfl

theorem firstName_aluRow {op : Word} (hg : fieldGroup op = 8) (name : String) (n : Fin 16) (rows : List OpcodeRow) :
    firstName (aluRow name n :: rows) op = if (fieldN op).toFin = n then some name else firstName rows op := by
  rw [firstName_cons]
  simp only [aluRow_selects hg]
  rfl

/-! ## The decoder's arms -/

/-- A group of one row: the row matches every word of the group, whatever its operands. -/
theorem firstName_of_groupRows {op : Word} {g : Fin 16} {i : Instr} (hg : fieldGroup op = g) (hdec : decodeWord op = i)
    (hrows : groupRows g = [groupRow g i.mnemonic]) : firstName opcodeTable op = some (decodeWord op).mnemonic := by
  rw [hdec, firstName_opcodeTable, hg, hrows, firstName_groupRow hg]

theorem firstName_group0 {op : Word} (hg : fieldGroup op = 0x0) : firstName opcodeTable op = some (decodeGroup0 op).mnemonic := by
  rw [firstName_opcodeTable, hg, groupRows_0]
  simp only [firstName_subcodeRow hg, firstName_groupRow hg, decodeGroup0, apply_ite Instr.mnemonic, apply_ite some]
  rfl

theorem firstName_groupE {op : Word} (hg : fieldGroup op = 0xE) : firstName opcodeTable op = some (decodeGroupE op).mnemonic := by
  rw [firstName_opcodeTable, hg, groupRows_E]
  simp only [firstName_subcodeRow hg, firstName_groupRow hg, decodeGroupE, apply_ite Instr.mnemonic, apply_ite some]
  rfl

theorem firstName_groupF {op : Word} (hg : fieldGroup op = 0xF) : firstName opcodeTable op = some (decodeGroupF op).mnemonic := by
  rw [firstName_opcodeTable, hg, groupRows_F]
  simp only [firstName_subcodeRow hg, firstName_groupRow hg, decodeGroupF, apply_ite Instr.mnemonic, apply_ite some]
  rfl

theorem firstName_group8 {op : Word} (hg : fieldGroup op = 0x8) : firstName opcodeTable op = some (decodeGroup8 op).mnemonic := by
  rw [firstName_opcodeTable, hg, groupRows_8]
  simp only [firstName_aluRow hg, firstName_groupRow hg]
  unfold decodeGroup8
  generalize (fieldN op).toFin = n
  fin_cases n <;> rfl

/-- The table names every word as the decoder does, group by group. -/
theorem firstName_eq_mnemonic (op : Word) : firstName opcodeTable op = some (decodeWord op).mnemonic := by
  generalize hg : fieldGroup op = g
  fin_cases g
  · rw [decodeWord_group0 hg, firstName_group0 hg]
  · exact firstName_of_groupRows hg (decodeWord_group1 hg) rfl
  · exact firstName_of_groupRows hg (decodeWord_group2 hg) rfl
  · exact firstName_of_groupRows hg (decodeWord_group3 hg) rfl
  · exact firstName_of_groupRows hg (decodeWord_group4 hg) rfl
  · exact firstName_of_groupRows hg (decodeWord_group5 hg) rfl
  · exact firstName_of_groupRows hg (decodeWord_group6 hg) rfl
  · exact firstName_of_groupRows hg (decodeWord_group7 hg) rfl
  · rw [decodeWord_group8 hg, firstName_group8 hg]
  · exact firstName_of_groupRows hg (decodeWord_group9 hg) rfl
  · exact firstName_of_groupRows hg (decodeWord_groupA hg) rfl
  · exact firstName_of_groupRows hg (decodeWord_groupB hg) rfl
  · exact firstName_of_groupRows hg (decodeWord_groupC hg) rfl
  · exact firstName_of_groupRows hg (decodeWord_groupD hg) rfl
  · rw [decodeWord_groupE hg, firstName_groupE hg]
  · rw [decodeWord_groupF hg, firstName_groupF hg]

/-! ## The 34 instruction rows are disjoint -/

/-- The rows' values differ in a bit that both masks cover. -/
abbrev Differ (r r' : OpcodeRow) : Prop := r.value &&& r'.mask ≠ r'.value &&& r.mask

theorem not_differ_of_selects {r r' : OpcodeRow} {op : Word} (h : r.selects op = true) (h' : r'.selects op = true) :
    ¬Differ r r' := by
  rw [not_not]
  simp only [OpcodeRow.selects, beq_iff_eq] at h h'
  rw [← h, ← h', BitVec.and_assoc, BitVec.and_assoc, BitVec.and_comm r.mask]

theorem opcodeRows_pairwise_differ : opcodeRows.Pairwise Differ := by decide

/-- Of rows that differ pairwise at most one matches a word. -/
theorem length_filter_selects_le_one {rows : List OpcodeRow} (hdiffer : rows.Pairwise Differ) (op : Word) :
    (rows.filter (·.selects op)).length ≤ 1 := by
  have hall : ∀ r ∈ rows.filter (·.selects op), r.selects op = true := fun _ hr => (List.mem_filter.mp hr).2
  replace hdiffer := hdiffer.filter (·.selects op)
  generalize rows.filter (·.selects op) = matching at *
  match matching with
  | [] | [_] => simp
  | r :: r' :: _ =>
    have hne : Differ r r' := List.rel_of_pairwise_cons hdiffer List.mem_cons_self
    exact absurd hne (not_differ_of_selects (hall r (by simp)) (hall r' (by simp)))

/-- Settles O3: the table's rows of a group ask for the sub-codes that the decoder asks for, in the same order; and no word matches two
instruction rows, whose values differ where both masks look. -/
theorem decoderFollowsOpcodeTable : Obligations.DecoderFollowsOpcodeTable :=
  fun op => ⟨firstName_eq_mnemonic op, length_filter_selects_le_one opcodeRows_pairwise_differ op⟩

end Sys2Proof.Proofs
end

section
/-! PROOFS. The control-flow group (spec/40_control_flow.md): clear and return, jump, call, jump with offset, the skips and the reserved
words. -/

namespace Sys2Proof

/-! ## The decoder by sub-code in groups 0x0 and 0xE -/

theorem decodeGroup0_cls {op : Word} (h : fieldNN op = 0xE0#8) : decodeGroup0 op = .cls (nibbleX op) := if_pos h

theorem decodeGroup0_ret {op : Word} (h : fieldNN op = 0xEE#8) : decodeGroup0 op = .ret (nibbleX op) := by
  rw [decodeGroup0, if_neg (by simp [h]), if_pos h]

theorem decodeGroupE_skp {op : Word} (h : fieldNN op = 0x9E#8) : decodeGroupE op = .skp (fieldX op) := if_pos h

theorem decodeGroupE_sknp {op : Word} (h : fieldNN op = 0xA1#8) : decodeGroupE op = .sknp (fieldX op) := by
  rw [decodeGroupE, if_neg (by simp [h]), if_pos h]

end Sys2Proof

namespace Sys2Proof.Machine

/-! ## Jump targets and key codes as numbers -/

@[simp] theorem toNat_extAddr (nnn : Addr12) : (extAddr nnn).toNat = nnn.toNat := BitVec.toNat_setWidth_of_le (by decide)

@[simp] theorem toNat_extByte (b : Byte) : (extByte b).toNat = b.toNat := BitVec.toNat_setWidth_of_le (by decide)

/-- The sum of BNNN never wraps: 0xFFF + 0xFF is below 0x10000 (R147). -/
theorem State.toNat_offsetTarget (s : State) (nnn : Addr12) : (s.offsetTarget nnn).toNat = nnn.toNat + (s.reg 0).toNat := by
  rw [State.offsetTarget, BitVec.toNat_add_of_lt, toNat_extAddr, toNat_extByte]
  rw [toNat_extAddr, toNat_extByte]
  omega

/-- A held key's code is one of the sixteen; a byte above 0xF is none (D19). -/
theorem State.keyHeld_iff (s : State) (code : Byte) :
    s.keyHeld code = true ↔ ∃ k : Fin 16, code.toNat = k.val ∧ s.keys.getLsbD k.val = true := by
  simp only [State.keyHeld, Bool.and_eq_true, decide_eq_true_eq]
  constructor
  · rintro ⟨hcode, hheld⟩
    exact ⟨⟨code.toNat, Nat.lt_succ_of_le hcode⟩, rfl, hheld⟩
  · rintro ⟨k, hcode, hheld⟩
    exact ⟨hcode ▸ Nat.le_of_lt_succ k.isLt, hcode ▸ hheld⟩

/-! ## RET and CALL, by the number of entries in use -/

/-- With n + 1 entries in use, entry n is the newest. -/
theorem execRet_succ {s : State} {n : Fin 16} (h : s.sp = n.succ) :
    execRet s = .next { s with sp := n.castSucc, pc := s.stack[n] } := by
  rw [execRet, s.pop_some (by simp [h])]
  simp only [h]
  rfl

theorem execRet_empty {s : State} (h : s.sp = 0) : execRet s = .next (Claim.faulted s .stackUnderflow 0) := by
  rw [execRet, s.pop_empty h]
  rfl

/-- With n entries in use, n below 16, the return address goes to entry n. -/
theorem execCall_castSucc {s : State} {n : Fin 16} (h : s.sp = n.castSucc) (nnn : Addr12) :
    execCall nnn s = .next { s with stack := s.stack.set n s.pc, sp := n.succ, pc := extAddr nnn } := by
  rw [execCall, s.push_room _ (by simp [h])]
  simp only [h]
  rfl

theorem execCall_full {s : State} (h : s.sp = 16) (nnn : Addr12) :
    execCall nnn s = .next (Claim.faulted s .stackOverflow 0) := by
  rw [execCall, s.push_full _ h]
  rfl

end Sys2Proof.Machine

namespace Sys2Proof.Proofs

open Sys2Proof.Machine Sys2Proof.Claim

/-! ## What an update leaves as it was -/

theorem kept_refl (s : State) (e : Element) : Kept s s e := by
  cases e <;> simp [Kept]

theorem keptBut_fb (s : State) (fb : Grid) : KeptBut [.fb] s { s with fb := fb } := by
  intro e he
  have same := kept_refl s e
  cases e with
  | fb => simp at he
  | _ => exact same

theorem keptBut_pc (s : State) (pc : Word) : KeptBut [.pc] s { s with pc := pc } := by
  intro e he
  have same := kept_refl s e
  cases e with
  | pc => simp at he
  | _ => exact same

theorem keptBut_pc_sp (s : State) (pc : Word) (sp : Fin 17) : KeptBut [.pc, .sp] s { s with sp := sp, pc := pc } := by
  intro e he
  have same := kept_refl s e
  cases e with
  | pc | sp => simp at he
  | _ => exact same

theorem keptBut_pc_sp_stack (s : State) (pc : Word) (sp : Fin 17) (stack : Vector Word 16) :
    KeptBut [.pc, .sp, .stack] s { s with stack := stack, sp := sp, pc := pc } := by
  intro e he
  have same := kept_refl s e
  cases e with
  | pc | sp | stack => simp at he
  | _ => exact same

/-! ## Call and return -/

/-- Settles O23: the call puts the advanced PC in entry SP, and the return takes it from there. -/
theorem callThenRetReturns : Obligations.CallThenRetReturns := by
  intro nnn ign s hroom
  obtain ⟨n, hn⟩ : ∃ n : Fin 16, s.sp = n.castSucc := ⟨⟨s.sp.val, hroom⟩, rfl⟩
  refine ⟨_, execCall_castSucc hn nnn, fun t' hsp hstack => ⟨_, execRet_succ hsp, ?_, hn.symm, keptBut_pc_sp _ _ _⟩⟩
  calc t'.stack[n] = (s.stack.set n s.pc)[n] := by rw [hstack]
    _ = s.pc := Vector.getElem_set_self _

/-- Settles O20: RET with n + 1 entries in use, and with none. -/
theorem retPopsOrUnderflows : Obligations.RetPopsOrUnderflows := by
  refine ⟨fun op h => ?_, fun ign s hpos => ?_, fun ign s hzero => execRet_empty (Fin.ext hzero)⟩
  · rw [decodeWord_group0 (fieldGroup_of_mask h rfl), decodeGroup0_ret (fieldNN_of_mask h rfl)]
  · obtain ⟨n, hn⟩ := Fin.exists_succ_eq_of_ne_zero (Fin.pos_iff_ne_zero.mp hpos)
    refine ⟨_, execRet_succ hn.symm, ?_, ?_, keptBut_pc_sp _ _ _⟩ <;> simp [← hn]

/-- Settles O22: CALL with n entries, n below 16, and with 16. -/
theorem callPushesOrOverflows : Obligations.CallPushesOrOverflows := by
  refine ⟨fun op h => decodeWord_group2 (fieldGroup_of_mask h rfl), fun nnn s hroom => ?_,
    fun nnn s hfull => execCall_full (Fin.ext hfull) nnn⟩
  obtain ⟨n, hn⟩ : ∃ n : Fin 16, s.sp = n.castSucc := ⟨⟨s.sp.val, hroom⟩, rfl⟩
  refine ⟨_, execCall_castSucc hn nnn, toNat_extAddr nnn, by simp [hn], fun k => ?_, keptBut_pc_sp_stack _ _ _ _⟩
  simp [hn, Vector.getElem_set, eq_comm]

/-! ## Clear and jump -/

/-- Settles O19: the grid written is the clear one. -/
theorem clsClearsFramebuffer : Obligations.ClsClearsFramebuffer := by
  refine ⟨fun op h => ?_, fun ign s => ⟨_, rfl, Grid.cell_clear, keptBut_fb _ _⟩⟩
  rw [decodeWord_group0 (fieldGroup_of_mask h rfl), decodeGroup0_cls (fieldNN_of_mask h rfl)]

/-- Settles O21: zero-extension keeps the target's number. -/
theorem jpSetsPc : Obligations.JpSetsPc :=
  ⟨fun _ h => decodeWord_group1 (fieldGroup_of_mask h rfl), fun nnn _ => ⟨_, rfl, toNat_extAddr nnn, keptBut_pc _ _⟩⟩

/-- Settles O24: the sum of NNN and V0 fits in 16 bits. -/
theorem jpV0AddsOffset : Obligations.JpV0AddsOffset :=
  ⟨fun _ h => decodeWord_groupB (fieldGroup_of_mask h rfl), fun nnn s => ⟨_, rfl, s.toNat_offsetTarget nnn, keptBut_pc _ _⟩⟩

/-! ## The skips (R141) -/

/-- An instruction that is `skipIf` under a test skips exactly when the test says so, and changes PC at most. -/
theorem skips_of_skipIf {i : Instr} {test : State → Bool} {taken : State → Prop}
    (hexec : ∀ s, exec i s = .next (s.skipIf (test s))) (htest : ∀ s, test s = true ↔ taken s) : Skips i taken := by
  intro s
  refine ⟨_, hexec s, fun h => ?_, fun h => ?_, ?_⟩
  · rw [State.skipIf_pc, if_pos ((htest s).mpr h)]
  · rw [State.skipIf_pc, if_neg (mt (htest s).mp h)]
  · rw [State.skipIf_frame]
    exact keptBut_pc _ _

/-- Settles O25: a skip under the test `==`. -/
theorem skipIfEqualImmediate : Obligations.SkipIfEqualImmediate :=
  ⟨fun _ h => decodeWord_group3 (fieldGroup_of_mask h rfl), fun _ _ => skips_of_skipIf (fun _ => rfl) fun _ => beq_iff_eq⟩

/-- Settles O26: each skip by its test, `!=`, `==` and `!=`. -/
theorem skipsByPolarity : Obligations.SkipsByPolarity :=
  ⟨fun _ h => decodeWord_group4 (fieldGroup_of_mask h rfl),
    fun _ h => decodeWord_group5 (fieldGroup_of_mask h rfl),
    fun _ h => decodeWord_group9 (fieldGroup_of_mask h rfl),
    fun _ _ => skips_of_skipIf (fun _ => rfl) fun _ => bne_iff_ne,
    fun _ _ _ => skips_of_skipIf (fun _ => rfl) fun _ => beq_iff_eq,
    fun _ _ _ => skips_of_skipIf (fun _ => rfl) fun _ => bne_iff_ne⟩

/-- Settles O27: the two skips are one key test and its negation. -/
theorem keySkips : Obligations.KeySkips := by
  refine ⟨fun op h => ?_, fun op h => ?_, fun x => skips_of_skipIf (fun _ => rfl) fun s => s.keyHeld_iff _,
    fun x => skips_of_skipIf (fun _ => rfl) fun s => ?_⟩
  · rw [decodeWord_groupE (fieldGroup_of_mask h rfl), decodeGroupE_skp (fieldNN_of_mask h rfl)]
  · rw [decodeWord_groupE (fieldGroup_of_mask h rfl), decodeGroupE_sknp (fieldNN_of_mask h rfl)]
  · rw [← s.keyHeld_iff, Bool.not_eq_true', Bool.not_eq_true]

/-! ## The reserved words -/

/-- Settles O28: such a word decodes to its group's reserved row, whose meaning is to do nothing. -/
theorem reservedWordsDoNothing : Obligations.ReservedWordsDoNothing := by
  refine ⟨fun op hgroup hE0 hEE => ?_, fun op hgroup hgt hE => ?_, fun op hgroup h9E hA1 => ?_,
    fun _ _ _ => rfl, fun _ _ _ _ => rfl, fun _ _ _ => rfl⟩
  · rw [decodeWord_group0 (fieldGroup_of_mask hgroup rfl), decodeGroup0_reserved (by simpa [definedIn0] using ⟨hE0, hEE⟩)]
    exact fun _ => rfl
  · rw [decodeWord_group8 (fieldGroup_of_mask hgroup rfl), decodeGroup8_reserved (by simpa [definedIn8] using ⟨hgt, hE⟩)]
    exact fun _ => rfl
  · rw [decodeWord_groupE (fieldGroup_of_mask hgroup rfl), decodeGroupE_reserved (by simpa [definedInE] using ⟨h9E, hA1⟩)]
    exact fun _ => rfl

end Sys2Proof.Proofs
end

section
/-! PROOFS. The register and memory handlers (spec/41_register_memory.md): set and add immediate, set index, random byte. -/

namespace Sys2Proof.Proofs

open Sys2Proof.Machine Sys2Proof.Claim

/-! ## What a write of a register, of I or of a random byte leaves as it was -/

theorem keptBut_setReg (s : State) (k : RegIx) (b : Byte) : KeptBut [.reg k] s (s.setReg k b) := by
  intro e he
  have same := kept_refl s e
  cases e with
  | reg j => exact s.reg_setReg_other b (by simpa using he)
  | _ => exact same

theorem keptBut_i (s : State) (i : Word) : KeptBut [.i] s { s with i := i } := by
  intro e he
  have same := kept_refl s e
  cases e with
  | i => simp at he
  | _ => exact same

/-- Beyond its register write, RND changes the count of draws alone. -/
theorem keptBut_rndWith (r : Byte) (x : RegIx) (nn : Byte) (s : State) : KeptBut [.reg x, .draws] s (rndWith r x nn s) := by
  intro e he
  have written : Kept s (s.setReg x (r &&& nn)) e := keptBut_setReg s x _ e (mt (List.mem_append_left [Element.draws]) he)
  cases e with
  | draws => simp at he
  | _ => exact written

/-! ## Instructions that are one register write -/

theorem writesReg_of_setReg {i : Instr} {k : RegIx} {value : State → Byte} (hexec : ∀ s, exec i s = .next (s.setReg k (value s))) :
    WritesReg i k value :=
  fun s => ⟨_, hexec s, s.reg_setReg_self k _, keptBut_setReg s k _⟩

/-- Settles O31: the instruction is one register write. -/
theorem loadImmediate : Obligations.LoadImmediate :=
  ⟨fun _ h => decodeWord_group6 (fieldGroup_of_mask h rfl), fun _ _ => writesReg_of_setReg fun _ => rfl⟩

/-- Settles O32: one register write, of a sum of bytes, which wraps at 256. -/
theorem addImmediateWraps : Obligations.AddImmediateWraps := by
  refine ⟨fun _ h => decodeWord_group7 (fieldGroup_of_mask h rfl), fun x nn s => ?_⟩
  have hwrites : WritesReg (.addImm x nn) x fun s => s.reg x + nn := writesReg_of_setReg fun _ => rfl
  obtain ⟨t, hexec, hreg, hkept⟩ := hwrites s
  exact ⟨t, hexec, by rw [hreg, BitVec.toNat_add], hkept⟩

/-! ## Set index and random byte -/

/-- Settles O33: zero-extension keeps the address's number. -/
theorem loadIndex : Obligations.LoadIndex :=
  ⟨fun _ h => decodeWord_groupA (fieldGroup_of_mask h rfl), fun nnn s => ⟨_, rfl, toNat_extAddr nnn, keptBut_i s _⟩⟩

theorem reg_rndWith_self (r : Byte) (x : RegIx) (nn : Byte) (s : State) : (rndWith r x nn s).reg x = r &&& nn :=
  s.reg_setReg_self x _

/-- Settles O34: for every byte r the register takes r under the mask, bit by bit. -/
theorem randomUnderMask : Obligations.RandomUnderMask := by
  refine ⟨fun _ h => decodeWord_groupC (fieldGroup_of_mask h rfl), fun _ _ _ => rfl,
    fun r x nn s => ⟨rfl, keptBut_rndWith r x nn s, fun j => ?_⟩⟩
  rw [reg_rndWith_self, BitVec.getLsbD_and]

end Sys2Proof.Proofs
end

section
/-! PROOFS. The arithmetic and logic group (spec/42_alu.md): the results without a flag, the flagged instructions and their table. -/

namespace Sys2Proof.Machine

open Sys2Proof.Claim

/-! ## The model's flags as conditions on numbers -/

theorem flagByte_decide (p : Prop) [Decidable p] : flagByte (decide p) = flag p := by
  simp only [flagByte, flag, decide_eq_true_eq]

theorem lowBitFlag_eq (a : Byte) : lowBitFlag a = flag (a.toNat % 2 = 1) := by
  rw [lowBitFlag, BitVec.getLsbD, Nat.testBit_zero, flagByte_decide]

theorem highBitFlag_eq (a : Byte) : highBitFlag a = flag (a.toNat ≥ 128) := by
  rw [highBitFlag, ← BitVec.msb_eq_getLsbD_last, BitVec.msb_eq_decide, flagByte_decide]

/-- Halving a flag leaves 0. -/
theorem flag_div_two (p : Prop) [Decidable p] : flag p / 2 = 0 := by
  unfold flag
  split <;> decide

/-- A difference of bytes as a number, wrapping at 256. -/
theorem toNat_byte_sub (a b : Byte) : (a - b).toNat = (256 + a.toNat - b.toNat) % 256 := by
  rw [BitVec.toNat_sub]
  omega

/-! ## The registers between the two writes of a flagged instruction (R190) -/

theorem reg_setReg_VF (s : State) (f : Byte) : (s.setReg VF f).reg = afterFlag s f :=
  funext fun k => s.reg_setReg VF f k

theorem afterFlag_VF (s : State) (f : Byte) : afterFlag s f VF = f := if_pos rfl

theorem afterFlag_other {k : RegIx} (hk : k ≠ VF) (s : State) (f : Byte) : afterFlag s f k = s.reg k := if_neg hk

end Sys2Proof.Machine

namespace Sys2Proof.Proofs

open Sys2Proof.Machine Sys2Proof.Claim

/-! ## Encodings under the mask of group and N -/

theorem encodes_alu {value : Word} {n : Nibble} {instr : Word → Instr} (harm : ∀ {op : Word}, fieldN op = n → decodeGroup8 op = instr op)
    (hgroup : fieldGroup value = 8) (hn : fieldN value = n) : Encodes 0xF00F value instr := by
  intro op h
  rw [decodeWord_group8 ((fieldGroup_of_mask h rfl).trans hgroup), harm ((fieldN_of_mask h rfl).trans hn)]

/-! ## Instructions that write VF and then a result -/

/-- A flagged write changes the destination and VF at most. -/
theorem keptBut_flagThenWrite (s : State) (f : Byte) (dst : RegIx) (result : State → Byte) :
    KeptBut [.reg dst, .reg VF] s (s.flagThenWrite f dst result) := by
  intro e he
  have same := kept_refl s e
  cases e with
  | reg j =>
    obtain ⟨hdst, hVF⟩ : j ≠ dst ∧ j ≠ VF := by simpa using he
    rw [Kept, State.reg_flagThenWrite, if_neg hdst, if_neg hVF]
  | _ => exact same

/-- The instruction always completes; VF takes the flag, then `dst` the result of the registers as they then are (R190, decision D13). -/
def FlaggedWrite (i : Instr) (dst : RegIx) (f : State → Byte) (result : (RegIx → Byte) → Byte) : Prop :=
  ∀ s, ∃ t, exec i s = .next t ∧ t.reg dst = result (afterFlag s (f s)) ∧ (dst ≠ VF → t.reg VF = f s) ∧
    KeptBut [.reg dst, .reg VF] s t

theorem flaggedWrite_of_flagThenWrite {i : Instr} {dst : RegIx} {f : State → Byte} {result : (RegIx → Byte) → Byte}
    (hexec : ∀ s, exec i s = .next (s.flagThenWrite (f s) dst fun s' => result s'.reg)) : FlaggedWrite i dst f result := by
  refine fun s => ⟨_, hexec s, ?_, fun hdst => ?_, keptBut_flagThenWrite s _ dst _⟩
  · rw [State.reg_flagThenWrite, if_pos rfl, reg_setReg_VF]
  · rw [State.reg_flagThenWrite, if_neg hdst.symm, if_pos rfl]

theorem flaggedWrite_addReg (x y : RegIx) :
    FlaggedWrite (.addReg x y) x (fun s => flag ((s.reg x).toNat + (s.reg y).toNat > 255)) fun r => r x + r y := by
  simp only [← flagByte_decide]
  exact flaggedWrite_of_flagThenWrite fun _ => rfl

theorem flaggedWrite_subReg (x y : RegIx) :
    FlaggedWrite (.subReg x y) x (fun s => flag ((s.reg x).toNat > (s.reg y).toNat)) fun r => r x - r y := by
  simp only [← flagByte_decide]
  exact flaggedWrite_of_flagThenWrite fun _ => rfl

theorem flaggedWrite_shr (x : RegIx) (ign : Nibble) :
    FlaggedWrite (.shr x ign) x (fun s => flag ((s.reg x).toNat % 2 = 1)) fun r => r x / 2 := by
  simp only [← lowBitFlag_eq]
  exact flaggedWrite_of_flagThenWrite fun _ => rfl

theorem flaggedWrite_subnReg (x y : RegIx) :
    FlaggedWrite (.subnReg x y) y (fun s => flag ((s.reg y).toNat > (s.reg x).toNat)) fun r => r y - r x := by
  simp only [← flagByte_decide]
  exact flaggedWrite_of_flagThenWrite fun _ => rfl

theorem flaggedWrite_shl (x : RegIx) (ign : Nibble) :
    FlaggedWrite (.shl x ign) x (fun s => flag ((s.reg x).toNat ≥ 128)) fun r => r x * 2 := by
  simp only [← highBitFlag_eq]
  exact flaggedWrite_of_flagThenWrite fun _ => rfl

/-! ## The table of flagged results (R192) -/

/-- A flagged result of one operand: with X = F the operand read again is the flag. -/
theorem FlaggedWrite.unary_cases {i : Instr} {x : RegIx} {f : State → Byte} {op : Byte → Byte}
    (h : FlaggedWrite i x f fun r => op (r x)) (s : State) :
    ∃ t, exec i s = .next t ∧ (x ≠ VF → t.reg x = op (s.reg x) ∧ t.reg VF = f s) ∧ (x = VF → t.reg VF = op (f s)) := by
  obtain ⟨t, hexec, (hres : t.reg x = op (afterFlag s (f s) x)), hflag, -⟩ := h s
  refine ⟨t, hexec, fun hx => ⟨?_, hflag hx⟩, fun hx => ?_⟩
  · rw [hres, afterFlag_other hx]
  · rw [← hx, hres, hx, afterFlag_VF]

/-- A flagged result of two operands, by which of them are VF: an operand that is VF is read again as the flag. -/
theorem FlaggedWrite.binary_cases {i : Instr} {dst src : RegIx} {f : State → Byte} {op : Byte → Byte → Byte}
    (h : FlaggedWrite i dst f fun r => op (r dst) (r src)) (s : State) :
    ∃ t, exec i s = .next t ∧
      (dst ≠ VF → src ≠ VF → t.reg dst = op (s.reg dst) (s.reg src) ∧ t.reg VF = f s) ∧
      (dst = VF → src ≠ VF → t.reg VF = op (f s) (s.reg src)) ∧
      (dst ≠ VF → src = VF → t.reg dst = op (s.reg dst) (f s) ∧ t.reg VF = f s) ∧
      (dst = VF → src = VF → t.reg VF = op (f s) (f s)) := by
  obtain ⟨t, hexec, (hres : t.reg dst = op (afterFlag s (f s) dst) (afterFlag s (f s) src)), hflag, -⟩ := h s
  refine ⟨t, hexec, fun hd hs => ⟨?_, hflag hd⟩, fun hd hs => ?_, fun hd hs => ⟨?_, hflag hd⟩, fun hd hs => ?_⟩
  · rw [hres, afterFlag_other hd, afterFlag_other hs]
  · rw [← hd, hres, afterFlag_other hs, hd, afterFlag_VF]
  · rw [hres, afterFlag_other hd, hs, afterFlag_VF]
  · rw [← hd, hres, hs, hd, afterFlag_VF]

/-- Settles O41: each instruction's row is `unary_cases` or `binary_cases` of its flagged write; where VF is both operands the result is
the flag plus or minus itself. -/
theorem flaggedResultTable : Obligations.FlaggedResultTable := by
  rintro x y ign s _ _ rfl rfl
  refine ⟨?add, ?sub, ?shr, ?subn, ?shl⟩
  case add =>
    obtain ⟨t, hexec, hnone, hdst, hsrc, hboth⟩ := (flaggedWrite_addReg x y).binary_cases s
    refine ⟨t, hexec, hnone, hdst, hsrc, fun hx hy => ?_⟩
    rw [hboth hx hy, hx, hy, ← Nat.two_mul]
    exact BitVec.two_mul.symm
  case sub =>
    obtain ⟨t, hexec, hnone, hdst, hsrc, hboth⟩ := (flaggedWrite_subReg x y).binary_cases s
    exact ⟨t, hexec, hnone, hdst, hsrc, fun hx hy => (hboth hx hy).trans (BitVec.sub_self _)⟩
  case shr =>
    obtain ⟨t, hexec, hother, hVF⟩ := FlaggedWrite.unary_cases (op := (· / 2)) (flaggedWrite_shr x ign) s
    exact ⟨t, hexec, hother, fun hx => (hVF hx).trans (flag_div_two _)⟩
  case subn =>
    obtain ⟨t, hexec, hnone, hdst, hsrc, hboth⟩ := (flaggedWrite_subnReg x y).binary_cases s
    exact ⟨t, hexec, fun hx hy => hnone hy hx, fun hx hy => hsrc hy hx, fun hx hy => hdst hy hx,
      fun hx hy => (hboth hy hx).trans (BitVec.sub_self _)⟩
  case shl =>
    simp only [BitVec.mul_comm (2 : Byte)]
    exact FlaggedWrite.unary_cases (op := (· * 2)) (flaggedWrite_shl x ign) s

/-! ## The instructions one by one -/

/-- Settles O35: each is one register write. -/
theorem unflaggedAlu : Obligations.UnflaggedAlu :=
  ⟨encodes_alu decodeGroup8_0 rfl rfl, encodes_alu decodeGroup8_1 rfl rfl, encodes_alu decodeGroup8_2 rfl rfl,
    encodes_alu decodeGroup8_3 rfl rfl, fun _ _ => writesReg_of_setReg fun _ => rfl, fun _ _ => writesReg_of_setReg fun _ => rfl,
    fun _ _ => writesReg_of_setReg fun _ => rfl, fun _ _ => writesReg_of_setReg fun _ => rfl⟩

/-- Settles O36: a flagged write of a sum of bytes. -/
theorem addWithCarry : Obligations.AddWithCarry := by
  refine ⟨encodes_alu decodeGroup8_4 rfl rfl, fun x y s => ?_⟩
  obtain ⟨t, hexec, hres, hflag, hkept⟩ := flaggedWrite_addReg x y s
  exact ⟨t, hexec, by rw [hres, BitVec.toNat_add], hflag, hkept⟩

/-- Settles O37: a flagged write of a difference of bytes. -/
theorem subtractStrictFlag : Obligations.SubtractStrictFlag := by
  refine ⟨encodes_alu decodeGroup8_5 rfl rfl, fun x y s => ?_⟩
  obtain ⟨t, hexec, hres, hflag, hkept⟩ := flaggedWrite_subReg x y s
  exact ⟨t, hexec, by rw [hres, toNat_byte_sub], hflag, hkept⟩

/-- Settles O38: a flagged write of half the register; Y is not read. -/
theorem shiftRight : Obligations.ShiftRight := by
  refine ⟨encodes_alu decodeGroup8_6 rfl rfl, fun x ign s => ?_⟩
  obtain ⟨t, hexec, hres, hflag, hkept⟩ := flaggedWrite_shr x ign s
  exact ⟨t, hexec, by rw [hres, BitVec.toNat_udiv]; rfl, hflag, hkept⟩

/-- Settles O39: a flagged write of a difference of bytes into Vy. -/
theorem reverseSubtractIntoY : Obligations.ReverseSubtractIntoY := by
  refine ⟨encodes_alu decodeGroup8_7 rfl rfl, fun x y s => ?_⟩
  obtain ⟨t, hexec, hres, hflag, hkept⟩ := flaggedWrite_subnReg x y s
  exact ⟨t, hexec, by rw [hres, toNat_byte_sub], hflag, hkept⟩

/-- Settles O40: a flagged write of twice the register; Y is not read. -/
theorem shiftLeft : Obligations.ShiftLeft := by
  refine ⟨encodes_alu decodeGroup8_E rfl rfl, fun x ign s => ?_⟩
  obtain ⟨t, hexec, hres, hflag, hkept⟩ := flaggedWrite_shl x ign s
  exact ⟨t, hexec, by rw [hres, BitVec.toNat_mul]; rfl, hflag, hkept⟩

end Sys2Proof.Proofs
end

section
/-! PROOFS. Sprite drawing (spec/43_sprite_draw.md): the sprite as a list of pixels on distinct cells, what DRW does to every cell, the two
consequences for a second DRW, and the marks that no operation can observe. -/

namespace Sys2Proof.Machine

open Sys2Proof.Claim

/-! ## Drawing a list of pixels -/

/-- A sprite bit on the cell in column x and row y. -/
structure Pixel where
  x : Fin 64
  y : Fin 32
  bit : Bool

/-- The cell that the pixel falls on. -/
def Pixel.cell (p : Pixel) : Fin 64 × Fin 32 := (p.x, p.y)

/-- Draw the pixels one after another. -/
def State.drawPixels (s : State) (ps : List Pixel) : State := ps.foldl (fun s p => s.drawPixel p.x p.y p.bit) s

theorem State.drawPixels_nil (s : State) : s.drawPixels [] = s := rfl

theorem State.drawPixels_cons (s : State) (p : Pixel) (ps : List Pixel) :
    s.drawPixels (p :: ps) = (s.drawPixel p.x p.y p.bit).drawPixels ps := rfl

theorem State.drawPixels_append (s : State) (ps qs : List Pixel) : s.drawPixels (ps ++ qs) = (s.drawPixels ps).drawPixels qs :=
  List.foldl_append

/-- A pixel leaves F and P as they were on every other cell. -/
theorem State.drawPixel_off (s : State) (p : Pixel) {c : Fin 64 × Fin 32} (hc : c ≠ p.cell) :
    (s.drawPixel p.x p.y p.bit).fb.cell c.1 c.2 = s.fb.cell c.1 c.2 ∧
      (s.drawPixel p.x p.y p.bit).pend.cell c.1 c.2 = s.pend.cell c.1 c.2 := by
  have hoff : ¬(c.1 = p.x ∧ c.2 = p.y) := fun h => hc (Prod.ext h.1 h.2)
  rw [State.drawPixel_cell, State.drawPixel_pend, if_neg hoff, if_neg hoff]
  exact ⟨rfl, rfl⟩

/-- A cell under no pixel keeps its bit and its mark. -/
theorem State.drawPixels_off (s : State) {ps : List Pixel} {c : Fin 64 × Fin 32} (hc : c ∉ ps.map Pixel.cell) :
    (s.drawPixels ps).fb.cell c.1 c.2 = s.fb.cell c.1 c.2 ∧ (s.drawPixels ps).pend.cell c.1 c.2 = s.pend.cell c.1 c.2 := by
  induction ps generalizing s with
  | nil => exact ⟨rfl, rfl⟩
  | cons p ps ih =>
    obtain ⟨hp, hps⟩ : c ≠ p.cell ∧ c ∉ ps.map Pixel.cell := by simpa only [List.map_cons, List.mem_cons, not_or] using hc
    obtain ⟨hfb, hpend⟩ := s.drawPixel_off p hp
    rw [State.drawPixels_cons, (ih _ hps).1, (ih _ hps).2, hfb, hpend]
    exact ⟨rfl, rfl⟩

/-- A cell under one pixel and no other is set by the pixel's bit, and marked where the exclusive or is 0 (R203). -/
theorem State.drawPixels_on (s : State) {ps : List Pixel} (hdistinct : (ps.map Pixel.cell).Nodup) {p : Pixel} (hp : p ∈ ps) :
    (s.drawPixels ps).fb.cell p.x p.y = (s.fb.cell p.x p.y || p.bit) ∧
      (s.drawPixels ps).pend.cell p.x p.y = (s.pend.cell p.x p.y || s.fb.cell p.x p.y == p.bit) := by
  induction ps generalizing s with
  | nil => simp at hp
  | cons q ps ih =>
    obtain ⟨hq, hps⟩ : q.cell ∉ ps.map Pixel.cell ∧ (ps.map Pixel.cell).Nodup := List.nodup_cons.mp hdistinct
    rw [State.drawPixels_cons]
    obtain rfl | hp := List.mem_cons.mp hp
    · obtain ⟨hfb, hpend⟩ := (s.drawPixel p.x p.y p.bit).drawPixels_off hq
      rw [Pixel.cell] at hfb hpend
      rw [hfb, hpend, State.drawPixel_cell, State.drawPixel_pend, if_pos ⟨rfl, rfl⟩, if_pos ⟨rfl, rfl⟩]
      exact ⟨rfl, rfl⟩
    · have hne : p.cell ≠ q.cell := fun h => hq (h ▸ List.mem_map_of_mem hp)
      obtain ⟨hfb, hpend⟩ := s.drawPixel_off q hne
      rw [Pixel.cell] at hfb hpend
      rw [(ih _ hps hp).1, (ih _ hps hp).2, hfb, hpend]
      exact ⟨rfl, rfl⟩

/-- RD is raised by a bit 1 (R204). -/
theorem State.drawPixels_rd (s : State) (ps : List Pixel) : (s.drawPixels ps).rd = (s.rd || ps.any Pixel.bit) := by
  induction ps generalizing s with
  | nil => simp [State.drawPixels_nil]
  | cons p ps ih => rw [State.drawPixels_cons, ih, State.drawPixel_rd, List.any_cons, Bool.or_assoc]

/-- Pixels on distinct cells set VF exactly when one of them collides with a cell as it was before the first (R205, R207). -/
theorem State.drawPixels_reg_VF (s : State) {ps : List Pixel} (hdistinct : (ps.map Pixel.cell).Nodup) :
    (s.drawPixels ps).reg VF = if ∃ p ∈ ps, s.fb.cell p.x p.y = true ∧ p.bit = true then 1 else s.reg VF := by
  induction ps generalizing s with
  | nil => simp [State.drawPixels_nil]
  | cons p ps ih =>
    obtain ⟨hp, hps⟩ : p.cell ∉ ps.map Pixel.cell ∧ (ps.map Pixel.cell).Nodup := List.nodup_cons.mp hdistinct
    have hrest : ∀ q ∈ ps, (s.drawPixel p.x p.y p.bit).fb.cell q.x q.y = s.fb.cell q.x q.y := fun q hq =>
      (s.drawPixel_off p (c := q.cell) fun h => hp (h ▸ List.mem_map_of_mem hq)).1
    have hsame : (∃ q ∈ ps, (s.drawPixel p.x p.y p.bit).fb.cell q.x q.y = true ∧ q.bit = true) ↔
        ∃ q ∈ ps, s.fb.cell q.x q.y = true ∧ q.bit = true :=
      exists_congr fun q => and_congr_right fun hq => by rw [hrest q hq]
    simp only [State.drawPixels_cons, ih _ hps, hsame, State.drawPixel_reg, List.exists_mem_cons_iff]
    by_cases hhit : s.fb.cell p.x p.y = true ∧ p.bit = true <;> simp [hhit]

/-- No register but VF is written. -/
theorem State.drawPixels_reg_other (s : State) (ps : List Pixel) {k : RegIx} (hk : k ≠ VF) : (s.drawPixels ps).reg k = s.reg k := by
  induction ps generalizing s with
  | nil => rfl
  | cons p ps ih => rw [State.drawPixels_cons, ih, State.drawPixel_reg, if_neg fun h => hk h.1]

/-! ## The pixels of a sprite -/

/-- The pixel of a sprite at (row, bit), the operands latched in `s` (R201, R208). -/
def spritePixel (s : State) (x y : RegIx) (index : Nat × Nat) : Pixel :=
  ⟨spriteColumn (s.reg x) index.2, spriteRow (s.reg y) index.1, spriteBit s index.1 index.2⟩

/-- The pixels of a sprite of n rows in the order in which they are drawn. -/
def spritePixels (s : State) (x y : RegIx) (n : Nat) : List Pixel := (List.range n ×ˢ List.range 8).map (spritePixel s x y)

theorem pixelAt_iff (s : State) (x y : RegIx) (n : Nibble) (row bit : Nat) (cx : Fin 64) (cy : Fin 32) :
    PixelAt s x y n row bit cx cy ↔ (row < n.toNat ∧ bit < 8) ∧ (spritePixel s x y (row, bit)).cell = (cx, cy) := by
  simp only [PixelAt, spritePixel, Pixel.cell, spriteColumn, spriteRow, Prod.mk.injEq, Fin.ext_iff, Fin.val_ofNat, and_assoc, eq_comm]

theorem mem_spritePixels {s : State} {x y : RegIx} {n : Nat} {p : Pixel} :
    p ∈ spritePixels s x y n ↔ ∃ row bit, (row < n ∧ bit < 8) ∧ spritePixel s x y (row, bit) = p := by
  simp [spritePixels]

/-- Each cell is touched at most once: 8 columns of 64, and at most 32 rows (R207). -/
theorem spritePixels_distinct (s : State) (x y : RegIx) {n : Nat} (hn : n ≤ 32) : ((spritePixels s x y n).map Pixel.cell).Nodup := by
  rw [spritePixels, List.map_map]
  refine (List.nodup_range.product List.nodup_range).map_on ?_
  rintro ⟨row, bit⟩ h ⟨row', bit'⟩ h' heq
  simp only [List.mem_product, List.mem_range] at h h'
  simp only [Function.comp, Pixel.cell, spritePixel, spriteColumn, spriteRow, Prod.mk.injEq, Fin.ext_iff, Fin.val_ofNat] at heq
  exact Prod.ext (by dsimp only; omega) (by dsimp only; omega)

theorem drawRow_eq_drawPixels (s t : State) (x y : RegIx) (row : Nat) :
    t.drawRow (s.reg x) (s.reg y) row (s.readByte (s.i.toNat + row)) =
      t.drawPixels ((List.range 8).map fun bit => spritePixel s x y (row, bit)) := by
  rw [State.drawPixels, List.foldl_map]
  rfl

/-- Drawing n rows draws their pixels: no pixel changes the memory that the later rows are read from. -/
theorem drawRows_eq_drawPixels {s t : State} (hmem : t.mem = s.mem) (hfont : t.font = s.font) (x y : RegIx) (n : Nat) :
    t.drawRows (s.reg x) (s.reg y) s.i.toNat n = t.drawPixels (spritePixels s x y n) := by
  unfold State.drawRows spritePixels
  generalize List.range n = rows
  induction rows generalizing t with
  | nil => rfl
  | cons row rows ih =>
    obtain ⟨v, fb, pend, rd, hframe⟩ := t.drawRow_frame (s.reg x) (s.reg y) row (s.readByte (s.i.toNat + row))
    rw [List.foldl_cons, State.readByte_of_mem hmem hfont, ih (by rw [hframe, hmem]) (by rw [hframe, hfont]), drawRow_eq_drawPixels,
      List.product_cons, List.map_append, State.drawPixels_append, List.map_map]
    rfl

/-! ## What DRW does when the row bytes lie in memory -/

/-- The state after DRW within bounds: the clears committed, VF reset and the sprite's pixels drawn (R200). -/
def State.afterDrw (s : State) (x y : RegIx) (n : Nibble) : State :=
  (s.commitClears.setReg VF 0).drawPixels (spritePixels s x y n.toNat)

/-- The bounds of DRW as the bounds check asks for them (R202). -/
theorem rangeOk_rows_iff (base : Word) (n : Nat) : RangeOk base n ↔ n = 0 ∨ base.toNat + n - 1 ≤ 0xFFF := by
  unfold RangeOk
  omega

theorem exec_drw_inside {s : State} {n : Nibble} (h : n.toNat = 0 ∨ s.i.toNat + n.toNat - 1 ≤ 0xFFF) (x y : RegIx) :
    exec (.drw x y n) s = .next (s.afterDrw x y n) := by
  have hdraw : (s.commitClears.setReg VF 0).drawRows (s.reg x) (s.reg y) s.i.toNat n.toNat = s.afterDrw x y n :=
    drawRows_eq_drawPixels (by simp) (by simp) x y n.toNat
  exact (s.checkRange_inside ((rangeOk_rows_iff _ _).mpr h) _).trans (congrArg _ hdraw)

section
variable (s : State) (x y : RegIx) (n : Nibble)

/-- The cells that the pixels are drawn on are the effective ones, all without a mark (R204). -/
theorem committed_cell (cx : Fin 64) (cy : Fin 32) :
    (s.commitClears.setReg VF 0).fb.cell cx cy = effective s cx cy ∧ (s.commitClears.setReg VF 0).pend.cell cx cy = false := by
  simp [effective]

theorem spritePixels_nibble_distinct : ((spritePixels s x y n.toNat).map Pixel.cell).Nodup :=
  spritePixels_distinct s x y (by omega)

variable {s x y n} in
/-- A cell under a pixel is set when it was effectively set or the bit is 1, and marked when the exclusive or is 0 (R203, D16). -/
theorem afterDrw_pixel {row bit : Nat} {cx : Fin 64} {cy : Fin 32} (h : PixelAt s x y n row bit cx cy) :
    (s.afterDrw x y n).fb.cell cx cy = (effective s cx cy || spriteBit s row bit) ∧
      (s.afterDrw x y n).pend.cell cx cy = (effective s cx cy == spriteBit s row bit) := by
  obtain ⟨hindex, hcell⟩ := (pixelAt_iff ..).mp h
  obtain ⟨rfl, rfl⟩ := Prod.mk.inj hcell
  obtain ⟨hfb, hpend⟩ := (s.commitClears.setReg VF 0).drawPixels_on (spritePixels_nibble_distinct s x y n)
    (mem_spritePixels.mpr ⟨row, bit, hindex, rfl⟩)
  rw [(committed_cell s _ _).1] at hfb hpend
  rw [(committed_cell s _ _).2, Bool.false_or] at hpend
  exact ⟨hfb, hpend⟩

variable {s x y n} in
/-- Every other cell takes its effective value and no mark. -/
theorem afterDrw_off {cx : Fin 64} {cy : Fin 32} (h : ¬∃ row bit, PixelAt s x y n row bit cx cy) :
    (s.afterDrw x y n).fb.cell cx cy = effective s cx cy ∧ (s.afterDrw x y n).pend.cell cx cy = false := by
  have hoff : (cx, cy) ∉ (spritePixels s x y n.toNat).map Pixel.cell := by
    intro hmem
    obtain ⟨p, hp, hcell⟩ := List.mem_map.mp hmem
    obtain ⟨row, bit, hindex, rfl⟩ := mem_spritePixels.mp hp
    exact h ⟨row, bit, (pixelAt_iff ..).mpr ⟨hindex, hcell⟩⟩
  obtain ⟨hfb, hpend⟩ := (s.commitClears.setReg VF 0).drawPixels_off hoff
  exact ⟨hfb.trans (committed_cell s cx cy).1, hpend.trans (committed_cell s cx cy).2⟩

/-- Some pixel of the sprite collides: its cell is effectively set and its bit is 1 (R205). -/
def Collides : Prop := ∃ row bit cx cy, PixelAt s x y n row bit cx cy ∧ effective s cx cy = true ∧ spriteBit s row bit = true

open Classical in
theorem afterDrw_reg_VF : (s.afterDrw x y n).reg VF = if Collides s x y n then 1 else 0 := by
  have hcollides : (∃ p ∈ spritePixels s x y n.toNat, (s.commitClears.setReg VF 0).fb.cell p.x p.y = true ∧ p.bit = true) ↔
      Collides s x y n := by
    simp only [mem_spritePixels, (committed_cell s _ _).1, Collides, pixelAt_iff]
    constructor
    · rintro ⟨_, ⟨row, bit, hindex, rfl⟩, hset, hbit⟩
      exact ⟨row, bit, _, _, ⟨hindex, rfl⟩, hset, hbit⟩
    · rintro ⟨row, bit, _, _, ⟨hindex, hcell⟩, hset, hbit⟩
      obtain ⟨rfl, rfl⟩ := Prod.mk.inj hcell
      exact ⟨_, ⟨row, bit, hindex, rfl⟩, hset, hbit⟩
  rw [State.afterDrw, State.drawPixels_reg_VF _ (spritePixels_nibble_distinct s x y n), State.reg_setReg_self]
  simp only [hcollides]

/-- RD is raised by a commit that hits a set cell and by a sprite bit 1 (R204, D15). -/
theorem afterDrw_rd : (s.afterDrw x y n).rd = true ↔
    s.rd = true ∨ (∃ cx cy, s.fb.cell cx cy = true ∧ s.pend.cell cx cy = true) ∨
      ∃ row bit, row < n.toNat ∧ bit < 8 ∧ spriteBit s row bit = true := by
  have hbits : (spritePixels s x y n.toNat).any Pixel.bit = true ↔ ∃ row bit, row < n.toNat ∧ bit < 8 ∧ spriteBit s row bit = true := by
    simp [List.any_eq_true, mem_spritePixels, spritePixel, and_assoc]
  rw [State.afterDrw, State.drawPixels_rd, Bool.or_eq_true, hbits, State.setReg_rd, State.commitClears_rd, Bool.or_eq_true, anyCell_iff,
    or_assoc]
  simp only [Bool.and_eq_true, and_comm]

theorem afterDrw_frame : ∃ v fb pend rd, s.afterDrw x y n = { s with v := v, fb := fb, pend := pend, rd := rd } := by
  rw [State.afterDrw, ← drawRows_eq_drawPixels (by simp) (by simp)]
  exact s.drawSprite_frame _ _ _ _

theorem afterDrw_reg_other {k : RegIx} (hk : k ≠ VF) : (s.afterDrw x y n).reg k = s.reg k := by
  rw [State.afterDrw, State.drawPixels_reg_other _ _ hk, State.reg_setReg_other _ _ hk]
  exact State.reg_of_v s.commitClears_v k

theorem afterDrw_i : (s.afterDrw x y n).i = s.i := by
  obtain ⟨_, _, _, _, hframe⟩ := afterDrw_frame s x y n
  rw [hframe]

theorem afterDrw_spriteBit (row bit : Nat) : spriteBit (s.afterDrw x y n) row bit = spriteBit s row bit := by
  obtain ⟨_, _, _, _, hframe⟩ := afterDrw_frame s x y n
  rw [hframe]
  rfl

/-- The effective value of a cell under a pixel is toggled by the sprite bit. -/
theorem effective_afterDrw_pixel {row bit : Nat} {cx : Fin 64} {cy : Fin 32} (h : PixelAt s x y n row bit cx cy) :
    effective (s.afterDrw x y n) cx cy = (effective s cx cy ^^ spriteBit s row bit) := by
  obtain ⟨hfb, hpend⟩ := afterDrw_pixel h
  rw [effective, hfb, hpend]
  cases effective s cx cy <;> cases spriteBit s row bit <;> rfl

theorem effective_afterDrw_off {cx : Fin 64} {cy : Fin 32} (h : ¬∃ row bit, PixelAt s x y n row bit cx cy) :
    effective (s.afterDrw x y n) cx cy = effective s cx cy := by
  obtain ⟨hfb, hpend⟩ := afterDrw_off h
  rw [effective, hfb, hpend, Bool.not_false, Bool.and_true]

end

end Sys2Proof.Machine

namespace Sys2Proof.Proofs

open Sys2Proof.Machine Sys2Proof.Claim

/-! ## The statements about DRW -/

theorem keptBut_afterDrw (s : State) (x y : RegIx) (n : Nibble) : KeptBut [.reg VF, .fb, .pend, .rd] s (s.afterDrw x y n) := by
  intro e he
  have same := kept_refl s e
  obtain ⟨v, fb, pend, rd, hframe⟩ := afterDrw_frame s x y n
  cases e with
  | reg k => exact afterDrw_reg_other s x y n (by simpa using he)
  | fb | pend | rd => simp at he
  | _ => rw [hframe]; exact same

/-- Settles O42: cell by cell from the pixels of the sprite, which lie on distinct cells. -/
theorem drawSprite : Obligations.DrawSprite := by
  refine ⟨fun _ h => decodeWord_groupD (fieldGroup_of_mask h rfl), fun x y n s hrange => ?inside, fun x y n s hpos hout => ?outside⟩
  case inside =>
    refine ⟨_, exec_drw_inside hrange x y, fun _ _ _ _ => afterDrw_pixel, fun _ _ => afterDrw_off, fun hhit => ?hit, fun hmiss => ?miss,
      afterDrw_rd s x y n, keptBut_afterDrw s x y n⟩
    case hit => exact (afterDrw_reg_VF s x y n).trans (if_pos hhit)
    case miss => exact (afterDrw_reg_VF s x y n).trans (if_neg hmiss)
  case outside =>
    exact ⟨firstOutside s.i, firstOutside_toNat s.i, s.checkRange_outside (by rw [rangeOk_rows_iff]; omega) _⟩

/-- Settles O43: each of the two draws toggles the effective cells under the sprite by the same bits, and no other. -/
theorem drawTwiceRestoresEffectiveCells : Obligations.DrawTwiceRestoresEffectiveCells := by
  intro x y n s hx hy hrange
  have hpixel : ∀ {row bit cx cy}, PixelAt (s.afterDrw x y n) x y n row bit cx cy ↔ PixelAt s x y n row bit cx cy := by
    simp only [PixelAt, afterDrw_reg_other s x y n hx, afterDrw_reg_other s x y n hy, implies_true]
  refine ⟨_, _, exec_drw_inside hrange x y, exec_drw_inside (by rwa [afterDrw_i]) x y, fun cx cy => ?_⟩
  by_cases hcell : ∃ row bit, PixelAt s x y n row bit cx cy
  · obtain ⟨row, bit, hp⟩ := hcell
    rw [effective_afterDrw_pixel _ _ _ _ (hpixel.mpr hp), effective_afterDrw_pixel _ _ _ _ hp, afterDrw_spriteBit, Bool.xor_assoc, Bool.xor_self,
      Bool.xor_false]
  · rw [effective_afterDrw_off _ _ _ _ (by simpa only [hpixel] using hcell), effective_afterDrw_off _ _ _ _ hcell]

/-- Settles O44: the erased cell stays set under a mark, so it is effectively clear, and only a sprite bit 1 sets it again. -/
theorem erasedCellClearsAtNextDraw : Obligations.ErasedCellClearsAtNextDraw := by
  intro x y n s row bit cx cy hrange hp hset hbit
  obtain ⟨hfb, hpend⟩ := afterDrw_pixel hp
  have hcollides : Collides s x y n := ⟨row, bit, cx, cy, hp, hset, hbit⟩
  refine ⟨_, exec_drw_inside hrange x y, by rw [hfb, hset, Bool.true_or], by rw [afterDrw_reg_VF, if_pos hcollides],
    fun t' x' y' n' hfb' hpend' hrange' => ⟨_, exec_drw_inside hrange' x' y', fun hnot => ?_⟩⟩
  have hclear : effective t' cx cy = false := by
    rw [effective, hfb', hpend', hfb, hpend, hset, hbit]
    rfl
  by_cases hcell : ∃ row' bit', PixelAt t' x' y' n' row' bit' cx cy
  · obtain ⟨row', bit', hp'⟩ := hcell
    have hbit' : spriteBit t' row' bit' = false := Bool.eq_false_iff.mpr fun h => hnot ⟨row', bit', hp', h⟩
    rw [(afterDrw_pixel hp').1, hclear, hbit', Bool.or_false]
  · rw [(afterDrw_off hcell).1, hclear]

end Sys2Proof.Proofs
end

section
/-! PROOFS. Pending marks over clear cells cannot be observed (R206): every operation but DRW works beside P, and DRW commits P at once. -/

namespace Sys2Proof.Machine

/-! ## Operations that work beside P -/

/-- The state with another pending-clear grid. -/
def State.withPend (s : State) (p : Grid) : State := { s with pend := p }

/-- The answer with another pending-clear grid. -/
def Result.withPend (p : Grid) : Result → Result
  | .next t => .next (t.withPend p)
  | .fault f => .fault f
  | .refused r => .refused r

/-- The operation neither reads nor writes P. -/
def WorksBesidePend (f : State → Result) : Prop := ∀ s p, f (s.withPend p) = Result.withPend p (f s)

/-- The operation sets no cell of F. -/
def SetsNoCell (f : State → Result) : Prop := ∀ s t, f s = .next t → ∀ x y, t.fb.cell x y = true → s.fb.cell x y = true

/-- An operation that works beside P keeps P. -/
theorem WorksBesidePend.pend_eq {f : State → Result} (hf : WorksBesidePend f) {s t : State} (h : f s = .next t) : t.pend = s.pend := by
  have hself : f s = Result.withPend s.pend (f s) := hf s s.pend
  rw [h] at hself
  have ht : t = t.withPend s.pend := Host.Outcome.next.inj hself
  rw [ht]
  rfl

theorem writeBytes_withPend (s : State) (p : Grid) (a : Nat) (bs : List Byte) :
    (s.withPend p).writeBytes a bs = (s.writeBytes a bs).withPend p := by
  induction bs generalizing s a with
  | nil => rfl
  | cons b bs ih => exact ih (s.writeByte a b) (a + 1)

theorem skipIf_withPend (s : State) (p : Grid) (taken : Bool) : (s.withPend p).skipIf taken = (s.skipIf taken).withPend p := by
  cases taken <;> rfl

theorem checkRange_withPend (s : State) (p : Grid) (base : Word) (n : Nat) (go : Result) :
    (s.withPend p).checkRange base n (Result.withPend p go) = Result.withPend p (s.checkRange base n go) := by
  unfold State.checkRange
  split <;> rfl

theorem execRet_worksBesidePend : WorksBesidePend execRet := by
  intro s p
  obtain h | ⟨n, h⟩ := Fin.eq_zero_or_eq_succ s.sp
  · rw [execRet_empty h, execRet_empty (s := s.withPend p) h]
    rfl
  · rw [execRet_succ h, execRet_succ (s := s.withPend p) h]
    rfl

theorem execCall_worksBesidePend (nnn : Addr12) : WorksBesidePend (execCall nnn) := by
  intro s p
  obtain ⟨n, h⟩ | h := Fin.eq_castSucc_or_eq_last s.sp
  · rw [execCall_castSucc h, execCall_castSucc (s := s.withPend p) h]
    rfl
  · rw [execCall_full h, execCall_full (s := s.withPend p) h]
    rfl

theorem execLdKey_worksBesidePend (x : RegIx) : WorksBesidePend (execLdKey x) := by
  intro s p
  cases hkey : lowestKey s.keys <;> simp only [execLdKey, State.withPend, hkey] <;> rfl

theorem checkedStore_worksBesidePend (n : Nat) (bytes : State → List Byte) (hbytes : ∀ s p, bytes (s.withPend p) = bytes s) :
    WorksBesidePend fun s => s.checkRange s.i n (.next (s.writeBytes (s.addrAt 0) (bytes s))) := by
  intro s p
  have hstore : (s.withPend p).writeBytes (s.addrAt 0) (bytes (s.withPend p)) = (s.writeBytes (s.addrAt 0) (bytes s)).withPend p := by
    rw [hbytes, writeBytes_withPend]
  exact (congrArg (fun u => (s.withPend p).checkRange s.i n (.next u)) hstore).trans
    (checkRange_withPend s p s.i n (.next (s.writeBytes (s.addrAt 0) (bytes s))))

/-- No instruction but DRW reads or writes P. -/
theorem exec_worksBesidePend {i : Instr} (hi : ∀ x y n, i ≠ .drw x y n) : WorksBesidePend (exec i) := by
  cases i with
  | drw x y n => exact absurd rfl (hi x y n)
  | ret => exact execRet_worksBesidePend
  | call nnn => exact execCall_worksBesidePend nnn
  | ldKey x => exact execLdKey_worksBesidePend x
  | storeBcd x => exact checkedStore_worksBesidePend 3 (fun s => bcdDigits (s.reg x)) fun _ _ => rfl
  | storeRegs x => exact checkedStore_worksBesidePend (x.val + 1) (fun s => s.regsUpTo x) fun _ _ => rfl
  | loadRegs x => exact fun s p => checkRange_withPend s p s.i (x.val + 1) (.next { s with v := s.regsLoaded x })
  | seImm | sneImm | seReg | sneReg | skp | sknp => exact fun s p => congrArg _ (skipIf_withPend s p _)
  | _ => exact fun _ _ => rfl

/-- No instruction but DRW sets a cell: CLS clears them all, the others keep them. -/
theorem exec_setsNoCell {i : Instr} (hi : ∀ x y n, i ≠ .drw x y n) : SetsNoCell (exec i) := by
  intro s t h cx cy hset
  have hframe := exec_frame h
  cases i with
  | drw x y n => exact absurd rfl (hi x y n)
  | cls =>
    obtain rfl := Host.Outcome.next.inj h
    rw [Grid.cell_clear] at hset
    exact absurd hset Bool.false_ne_true
  | _ =>
    rw [hframe] at hset
    exact hset

theorem tick_withPend (s : State) (p : Grid) : tick (s.withPend p) = (tick s).withPend p := by
  by_cases hdt : s.dt.toNat > 0 <;> by_cases hrd : s.rd = true <;> simp [tick, State.withPend, hdt, hrd, State.emit]

theorem load_withPend (bytes : List Byte) (s : State) (p : Grid) : load bytes (s.withPend p) = (load bytes s).withPend p := by
  unfold load
  cases loadResult bytes with
  | ok => exact writeBytes_withPend s p _ bytes
  | errOutOfBounds => rfl

theorem nextOperation_withPend (s : State) (p : Grid) :
    (s.withPend p).nextOperation = (s.nextOperation.1, s.nextOperation.2.withPend p) := by
  match hs : s.schedule, hr : s.scheduler with
  | op :: rest, _ => rw [State.nextOperation_waiting hs, State.nextOperation_waiting (s := s.withPend p) hs]; rfl
  | [], .round [] => rw [State.nextOperation_steps hs hr, State.nextOperation_steps (s := s.withPend p) hs hr]
  | [], .round (op :: rest) => rw [State.nextOperation_round hs hr, State.nextOperation_round (s := s.withPend p) hs hr]; rfl
  | [], .free turn => rw [State.nextOperation_free hs hr, State.nextOperation_free (s := s.withPend p) hs hr]; rfl

end Sys2Proof.Machine

namespace Sys2Proof.Proofs

open Sys2Proof.Machine Sys2Proof.Claim

/-! ## Two states that differ in dead marks only -/

theorem sameButDeadMarks_iff {s t : State} :
    SameButDeadMarks s t ↔ ∃ p : Grid, (∀ x y, s.fb.cell x y = true → p.cell x y = s.pend.cell x y) ∧ t = s.withPend p :=
  ⟨fun ⟨ht, hmarks⟩ => ⟨t.pend, hmarks, ht⟩, by rintro ⟨p, hmarks, rfl⟩; exact ⟨rfl, hmarks⟩⟩

theorem sameButDeadMarks_refl (s : State) : SameButDeadMarks s s := ⟨rfl, fun _ _ _ => rfl⟩

/-- The operation takes two states that differ in dead marks only to two such states. -/
def KeepsSameButDeadMarks (f : State → Result) : Prop :=
  ∀ s t s', SameButDeadMarks s t → f s = .next s' → ∃ t', f t = .next t' ∧ SameButDeadMarks s' t'

/-- The marks stay where they are, and a cell that is set now was set before: a dead mark stays dead. -/
theorem keepsSameButDeadMarks_of_worksBesidePend {f : State → Result} (hpend : WorksBesidePend f) (hfb : SetsNoCell f) :
    KeepsSameButDeadMarks f := by
  intro s t s' hst h
  obtain ⟨p, hmarks, rfl⟩ := sameButDeadMarks_iff.mp hst
  refine ⟨s'.withPend p, by rw [hpend, h]; rfl, sameButDeadMarks_iff.mpr ⟨p, fun x y hset => ?_, rfl⟩⟩
  rw [hpend.pend_eq h]
  exact hmarks x y (hfb s s' h x y hset)

/-- The commit reads marks over set cells only, and leaves none (R206). -/
theorem commitClears_withPend {s : State} {p : Grid} (hmarks : ∀ x y, s.fb.cell x y = true → p.cell x y = s.pend.cell x y) :
    (s.withPend p).commitClears = s.commitClears := by
  have hhit : ∀ x y, (p.cell x y && s.fb.cell x y) = (s.pend.cell x y && s.fb.cell x y) := fun x y => by
    cases hset : s.fb.cell x y with
    | false => simp only [Bool.and_false]
    | true => rw [hmarks x y hset]
  have hstay : ∀ x y, (s.fb.cell x y && !p.cell x y) = (s.fb.cell x y && !s.pend.cell x y) := fun x y => by
    cases hset : s.fb.cell x y with
    | false => rfl
    | true => rw [hmarks x y hset]
  simp only [State.commitClears, State.withPend, hhit, hstay]

/-- DRW commits the marks before it reads anything else of the grids; a DRW out of bounds touches neither. -/
theorem exec_drw_keepsSameButDeadMarks (x y : RegIx) (n : Nibble) : KeepsSameButDeadMarks (exec (.drw x y n)) := by
  intro s t s' hst h
  obtain ⟨p, hmarks, rfl⟩ := sameButDeadMarks_iff.mp hst
  by_cases hr : RangeOk s.i n.toNat
  · have hs := (s.checkRange_inside hr _).symm.trans h
    have ht : exec (.drw x y n) (s.withPend p) = _ := (s.withPend p).checkRange_inside hr _
    rw [commitClears_withPend hmarks] at ht
    exact ⟨s', ht.trans hs, sameButDeadMarks_refl s'⟩
  · obtain rfl := Host.Outcome.next.inj ((s.checkRange_outside hr _).symm.trans h)
    exact ⟨_, (s.withPend p).checkRange_outside hr _, rfl, hmarks⟩

theorem exec_keepsSameButDeadMarks (i : Instr) : KeepsSameButDeadMarks (exec i) := by
  by_cases hi : ∃ x y n, i = .drw x y n
  · obtain ⟨x, y, n, rfl⟩ := hi
    exact exec_drw_keepsSameButDeadMarks x y n
  · have hother : ∀ x y n, i ≠ .drw x y n := fun x y n h => hi ⟨x, y, n, h⟩
    exact keepsSameButDeadMarks_of_worksBesidePend (exec_worksBesidePend hother) (exec_setsNoCell hother)

/-! ## The operations -/

/-- A STEP, by whether the Machine is halted and whether the fetch lies in memory: none of this reads F or P. -/
theorem stepOnce_keepsSameButDeadMarks : KeepsSameButDeadMarks stepOnce := by
  intro s t s' hst h
  obtain ⟨p, hmarks, rfl⟩ := sameButDeadMarks_iff.mp hst
  by_cases hrun : s.fault.code = .none
  · by_cases hpc : RangeOk s.pc 2
    · rw [stepOnce_fetched hrun hpc] at h
      rw [stepOnce_fetched (s := s.withPend p) hrun hpc]
      exact exec_keepsSameButDeadMarks _ { s with pc := s.pc + 2 } _ s' ⟨rfl, hmarks⟩ h
    · obtain rfl := Host.Outcome.next.inj ((stepOnce_outside hrun hpc).symm.trans h)
      exact ⟨_, stepOnce_outside (s := s.withPend p) hrun hpc, rfl, hmarks⟩
  · have hhalted : ∀ u : State, u.fault.code ≠ .none → stepOnce u = .next u := fun u hu => if_pos (u.halted_iff.mpr hu)
    obtain rfl := Host.Outcome.next.inj ((hhalted s hrun).symm.trans h)
    exact ⟨_, hhalted _ hrun, hst⟩

theorem runOperation_keepsSameButDeadMarks (op : Operation) : KeepsSameButDeadMarks (runOperation op) := by
  cases op with
  | step => exact stepOnce_keepsSameButDeadMarks
  | reset =>
    intro s t s' hst h
    obtain ⟨p, hmarks, rfl⟩ := sameButDeadMarks_iff.mp hst
    exact ⟨s', h, sameButDeadMarks_refl s'⟩
  | load bytes =>
    refine keepsSameButDeadMarks_of_worksBesidePend (fun s p => congrArg _ (load_withPend bytes s p)) fun s t h x y hset => ?_
    obtain rfl := Host.Outcome.next.inj h
    rwa [load_frame] at hset
  | tick =>
    refine keepsSameButDeadMarks_of_worksBesidePend (fun s p => congrArg _ (tick_withPend s p)) fun s t h x y hset => ?_
    obtain rfl := Host.Outcome.next.inj h
    rwa [tick_frame] at hset
  | keyDown | keyUp =>
    refine keepsSameButDeadMarks_of_worksBesidePend (fun s p => rfl) fun s t h x y hset => ?_
    obtain rfl := Host.Outcome.next.inj h
    exact hset

/-- Settles O45: both states take the same operation, and every operation keeps the marks over set cells equal. -/
theorem deadMarksUnobservable : Obligations.DeadMarksUnobservable := by
  intro s t s' hst h
  obtain ⟨p, hmarks, rfl⟩ := sameButDeadMarks_iff.mp hst
  have hnext : SameButDeadMarks s.nextOperation.2 (s.nextOperation.2.withPend p) := by
    rw [s.nextOperation_frame]
    exact ⟨rfl, hmarks⟩
  rw [step, nextOperation_withPend]
  exact runOperation_keepsSameButDeadMarks _ _ _ _ hnext h

end Sys2Proof.Proofs
end

section
/-! PROOFS. The key, timer and miscellaneous group (spec/44_key_timer_misc.md): the transfers of the delay timer, the key wait, the sound
event, the index register, and the stores and loads based at I. -/

namespace Sys2Proof.Machine

/-! ## The index register's sums as numbers -/

/-- The address of a glyph never wraps: 5 · 0xFF is below 0x10000 (R225). -/
theorem toNat_glyphAddr (b : Byte) : (glyphAddr b).toNat = b.toNat * 5 := by
  have hfits : (extByte b).toNat * (5 : Word).toNat < 2 ^ 16 := by
    rw [toNat_extByte]
    show b.toNat * 5 < 65536
    omega
  rw [glyphAddr, BitVec.toNat_mul_of_lt hfits, toNat_extByte]
  rfl

/-! ## The key wait (R221) -/

theorem lowestKey_some {keys : BitVec 16} {k : Fin 16} (hheld : keys.getLsbD k.val = true)
    (hbelow : ∀ j < k.val, keys.getLsbD j = false) : lowestKey keys = some k := by
  rw [lowestKey, ← Fin.find?_eq_find?_finRange, Fin.find?_eq_some_iff]
  exact ⟨hheld, fun j hj => hbelow j.val hj⟩

theorem execLdKey_noKey {s : State} (h : s.keys = 0) (x : RegIx) : execLdKey x s = .next { s with pc := s.pc - 2 } := by
  rw [execLdKey, (lowestKey_none _).mpr h]

theorem execLdKey_lowest {s : State} {k : Fin 16} (h : lowestKey s.keys = some k) (x : RegIx) :
    execLdKey x s = .next (s.setReg x (BitVec.ofNat 8 k.val)) := by
  rw [execLdKey, h]

/-! ## Bytes in memory from an address upward -/

theorem State.readByte_writeBytes_at (s : State) (a : Nat) (bytes : List Byte) {k : Nat} (h : k < bytes.length) :
    (s.writeBytes a bytes).readByte (a + k) = bytes[k] := by
  rw [State.readByte_writeBytes, dif_pos (by omega)]
  simp only [Nat.add_sub_cancel_left]

theorem length_regsUpTo (s : State) (x : RegIx) : (s.regsUpTo x).length = x.val + 1 := by
  simp only [State.regsUpTo, List.length_take, Vector.length_toList]
  omega

theorem getElem_regsUpTo (s : State) (x k : RegIx) (h : k.val < (s.regsUpTo x).length) : (s.regsUpTo x)[k.val] = s.reg k := by
  simp [State.regsUpTo, State.reg]

theorem reg_regsLoaded (s : State) (x k : RegIx) :
    ({ s with v := s.regsLoaded x } : State).reg k = if k ≤ x then s.readByte (s.i.toNat + k.val) else s.reg k :=
  Vector.getElem_ofFn k.isLt

/-- The highest of n + 1 addresses is n above the base (R84). -/
theorem rangeOk_succ_iff (base : Word) (n : Nat) : RangeOk base (n + 1) ↔ base.toNat + n ≤ 0xFFF := by
  unfold RangeOk
  omega

end Sys2Proof.Machine

namespace Sys2Proof.Proofs

open Sys2Proof.Machine Sys2Proof.Claim

/-! ## Encodings under the mask of group and NN -/

/-- Under that mask a word of group 0xF is the packing of its register number and the sub-code. -/
theorem encodes_subcodeF (nn : Byte) {instr : RegIx → Instr} (hdecode : ∀ x, decodeWord (packI 0xF#4 (regBits x) nn) = instr x) :
    Encodes 0xF0FF (packI 0xF#4 0#4 nn) fun op => instr (fieldX op) := by
  intro op h
  have hgroup : fieldGroup op = (0xF#4).toFin := (fieldGroup_of_mask h rfl).trans (fieldGroup_packI _ _ _)
  have hnn : fieldNN op = nn := (fieldNN_of_mask h rfl).trans (fieldNN_packI _ _ _)
  calc decodeWord op
    _ = decodeWord (packI (.ofFin (fieldGroup op)) (nibbleX op) (fieldNN op)) := by rw [packI_fields]
    _ = decodeWord (packI 0xF#4 (regBits (fieldX op)) nn) := by rw [hgroup, hnn]; rfl
    _ = instr (fieldX op) := hdecode _

/-! ## What a write of DT, of the outputs, of memory or of the registers leaves as it was -/

theorem keptBut_dt (s : State) (dt : Byte) : KeptBut [.dt] s { s with dt := dt } := by
  intro e he
  have same := kept_refl s e
  cases e with
  | dt => simp at he
  | _ => exact same

theorem keptBut_emit (s : State) (event : Output) : KeptBut [.outputs] s (s.emit event) := by
  intro e he
  have same := kept_refl s e
  cases e with
  | outputs => simp at he
  | _ => exact same

theorem keptBut_writeBytes (s : State) (a : Nat) (bytes : List Byte) : KeptBut [.memory] s (s.writeBytes a bytes) := by
  intro e he
  have same := kept_refl s e
  rw [State.writeBytes_frame]
  cases e with
  | memory => simp at he
  | _ => exact same

theorem memoryKeptOutside_writeBytes (s : State) (a : Nat) (bytes : List Byte) :
    MemoryKeptOutside a bytes.length s (s.writeBytes a bytes) := by
  intro b hb
  rw [State.readByte_writeBytes, dif_neg (by omega)]

/-- A write of the registers changes no other element. -/
theorem kept_v (s : State) (v : Vector Byte 16) {e : Element} (he : ∀ k, e ≠ .reg k) : Kept s { s with v := v } e := by
  have same := kept_refl s e
  cases e with
  | reg k => exact absurd rfl (he k)
  | _ => exact same

/-! ## Transfers of DT, the sound event and the index register -/

/-- Settles O46: one register write. -/
theorem readDelayTimer : Obligations.ReadDelayTimer :=
  ⟨encodes_subcodeF 0x07 fun x => Laws.RoundTrip.ldDt x rfl, fun _ => writesReg_of_setReg fun _ => rfl⟩

/-- Settles O49: one write of DT. -/
theorem setDelayTimer : Obligations.SetDelayTimer :=
  ⟨encodes_subcodeF 0x15 fun x => Laws.RoundTrip.setDt x rfl, fun _ s => ⟨_, rfl, rfl, keptBut_dt s _⟩⟩

/-- Settles O50: one event appended. -/
theorem soundTrigger : Obligations.SoundTrigger :=
  ⟨encodes_subcodeF 0x18 fun x => Laws.RoundTrip.setSound x rfl, fun _ s => ⟨_, rfl, rfl, keptBut_emit s _⟩⟩

/-- Settles O51: one write of I, by a 16-bit sum, which wraps at 65536. -/
theorem addToIndexWraps : Obligations.AddToIndexWraps := by
  refine ⟨encodes_subcodeF 0x1E fun x => Laws.RoundTrip.addI x rfl, fun x s => ⟨_, rfl, ?_, keptBut_i s _⟩⟩
  rw [BitVec.toNat_add, toNat_extByte]

/-- Settles O52: one write of I, by a product that fits in 16 bits. -/
theorem pointAtGlyph : Obligations.PointAtGlyph :=
  ⟨encodes_subcodeF 0x29 fun x => Laws.RoundTrip.ldFont x rfl, fun _ s => ⟨_, rfl, toNat_glyphAddr _, keptBut_i s _⟩⟩

/-! ## The key wait -/

/-- Settles O47: the key found is the lowest, and its code fits in a byte. -/
theorem waitForKeyTakesLowest : Obligations.WaitForKeyTakesLowest := by
  refine ⟨encodes_subcodeF 0x0A fun x => Laws.RoundTrip.ldKey x rfl, fun x s k hheld hbelow =>
    ⟨_, execLdKey_lowest (lowestKey_some hheld hbelow) x, ?_, keptBut_setReg s x _⟩⟩
  rw [State.reg_setReg_self, BitVec.toNat_ofNat, Nat.mod_eq_of_lt (by omega)]

/-- Settles O48: the poll takes back the 2 that the fetch added to PC. -/
theorem waitForKeyPolls : Obligations.WaitForKeyPolls := by
  refine ⟨fun x s hkeys => execLdKey_noKey hkeys x, fun x s u hnext hrun hpc hkeys hdecode => ?_⟩
  have hupc : u.pc = s.pc := by rw [comesNext_frame hnext]
  have hukeys : u.keys = 0 := by rw [comesNext_frame hnext, hkeys]
  have hfetched : decode [s.readByte s.pc.toNat, s.readByte (s.pc.toNat + 1)] = .ok (.ldKey x, []) :=
    congrArg (fun i => Except.ok (i, [])) hdecode
  calc step s
    _ = exec (.ldKey x) { u with pc := s.pc + 2 } := stepRunsDecodedInstruction s u (.ldKey x) hnext hrun hpc hfetched
    _ = .next { u with pc := s.pc + 2 - 2 } := execLdKey_noKey (s := { u with pc := s.pc + 2 }) hukeys x
    _ = .next u := by rw [BitVec.add_sub_cancel, ← hupc]

/-! ## The unknown sub-codes -/

/-- Settles O29: such a word decodes to the group's fallback row, whose meaning is to do nothing. -/
theorem unknownSubcodesIgnored : Obligations.UnknownSubcodesIgnored := by
  refine ⟨fun op hgroup hnn => ?_, fun _ _ _ => rfl⟩
  rw [decodeWord_groupF (fieldGroup_of_mask hgroup rfl), decodeGroupF_unknown (by simpa [definedInF, and_assoc] using hnn)]

/-! ## Stores and loads based at I -/

/-- An instruction under the bounds check of n + 1 bytes raises OutOfBounds when the last of them lies above 0xFFF (R251). -/
theorem raisesOutOfBounds_of_checkRange {i : Instr} {s : State} {base : Word} {n : Nat} {go : Result}
    (hexec : exec i s = s.checkRange base (n + 1) go) (h : 0xFFF < base.toNat + n) : RaisesOutOfBounds i s base :=
  ⟨firstOutside base, firstOutside_toNat base,
    hexec.trans (s.checkRange_outside (mt (rangeOk_succ_iff base n).mp (Nat.not_le.mpr h)) go)⟩

theorem exec_storeBcd_inside {s : State} (h : s.i.toNat + 2 ≤ 0xFFF) (x : RegIx) :
    exec (.storeBcd x) s = .next (s.writeBytes s.i.toNat (bcdDigits (s.reg x))) :=
  s.checkRange_inside ((rangeOk_succ_iff _ 2).mpr h) _

theorem exec_storeRegs_inside {s : State} {x : RegIx} (h : s.i.toNat + x.val ≤ 0xFFF) :
    exec (.storeRegs x) s = .next (s.writeBytes s.i.toNat (s.regsUpTo x)) :=
  s.checkRange_inside ((rangeOk_succ_iff _ x.val).mpr h) _

theorem exec_loadRegs_inside {s : State} {x : RegIx} (h : s.i.toNat + x.val ≤ 0xFFF) :
    exec (.loadRegs x) s = .next { s with v := s.regsLoaded x } :=
  s.checkRange_inside ((rangeOk_succ_iff _ x.val).mpr h) _

/-- Settles O53: byte k of the store is digit k. -/
theorem storeBcd : Obligations.StoreBcd := by
  refine ⟨encodes_subcodeF 0x33 fun x => Laws.RoundTrip.storeBcd x rfl, fun x s hrange => ?inside,
    fun x s hout => raisesOutOfBounds_of_checkRange rfl hout⟩
  case inside =>
    have hdigit : ∀ k (hk : k < 3),
        (s.writeBytes s.i.toNat (bcdDigits (s.reg x))).readByte (s.i.toNat + k) = (bcdDigits (s.reg x))[k] :=
      fun k hk => s.readByte_writeBytes_at _ (bcdDigits (s.reg x)) hk
    exact ⟨_, exec_storeBcd_inside hrange x, congrArg BitVec.toNat (hdigit 0 (by decide)), congrArg BitVec.toNat (hdigit 1 (by decide)),
      congrArg BitVec.toNat (hdigit 2 (by decide)), memoryKeptOutside_writeBytes s _ (bcdDigits (s.reg x)), keptBut_writeBytes s _ _⟩

/-- Settles O54: byte k of the store is register k. -/
theorem storeRegisters : Obligations.StoreRegisters := by
  refine ⟨encodes_subcodeF 0x55 fun x => Laws.RoundTrip.storeRegs x rfl, fun x s hrange => ?inside,
    fun x s hout => raisesOutOfBounds_of_checkRange rfl hout⟩
  case inside =>
    refine ⟨_, exec_storeRegs_inside hrange, fun k hk => ?_, ?_, keptBut_writeBytes s _ _⟩
    · have hlt : k.val < (s.regsUpTo x).length := length_regsUpTo s x ▸ Nat.lt_succ_of_le hk
      rw [s.readByte_writeBytes_at _ _ hlt, getElem_regsUpTo]
    · rw [← length_regsUpTo s x]
      exact memoryKeptOutside_writeBytes s _ _

/-- Settles O55: register by register, up to Vx and above it. -/
theorem loadRegisters : Obligations.LoadRegisters := by
  refine ⟨encodes_subcodeF 0x65 fun x => Laws.RoundTrip.loadRegs x rfl, fun x s hrange => ?inside,
    fun x s hout => raisesOutOfBounds_of_checkRange rfl hout⟩
  case inside =>
    refine ⟨_, exec_loadRegs_inside hrange, fun k hk => ?_, fun k hk => ?_, fun e he => kept_v s _ he⟩
    · rw [reg_regsLoaded, if_pos hk]
    · rw [reg_regsLoaded, if_neg (not_le.mpr hk)]

/-- Settles O56: FX55 keeps I, so FX65 reads the bytes that FX55 stored. -/
theorem saveRestoreRegisters : Obligations.SaveRestoreRegisters := by
  obtain ⟨-, hstore, -⟩ := storeRegisters
  obtain ⟨-, hload, -⟩ := loadRegisters
  intro x s between hrange
  obtain ⟨t, hexec, hstored, -, hkept⟩ := hstore x s hrange
  have hi : t.i = s.i := hkept .i (by decide)
  obtain ⟨u, hexec', hloaded, habove, -⟩ := hload x { t with v := between } (hi ▸ hrange)
  refine ⟨t, u, hexec, hexec', fun k => ?_⟩
  split
  case isTrue hk =>
    calc u.reg k
      _ = t.readByte (t.i.toNat + k.val) := hloaded k hk
      _ = s.reg k := hi ▸ hstored k hk
  case isFalse hk => exact habove k (not_le.mp hk)

end Sys2Proof.Proofs
end

section
/-! PROOFS. Exceptions and the operations that the host and the timer ask for (spec/60_exceptions.md): which instruction raises which fault,
that faults are precise and stay latched until RESET, and the effects of TICK, KEY_DOWN and KEY_UP. -/

namespace Sys2Proof.Machine

open Sys2Proof.Claim

/-! ## The fault that an instruction raises (R250 to R253) -/

/-- The code that the instruction raises in the state; `none` when it completes. -/
def State.raised (s : State) : Instr → FaultCode
  | .drw _ _ n => if RangeOk s.i n.toNat then .none else .outOfBounds
  | .storeBcd _ => if RangeOk s.i 3 then .none else .outOfBounds
  | .storeRegs x | .loadRegs x => if RangeOk s.i (x.val + 1) then .none else .outOfBounds
  | .call _ => if s.sp.val = 16 then .stackOverflow else .none
  | .ret _ => if s.sp.val = 0 then .stackUnderflow else .none
  | _ => .none

/-- The answer completes with the latch as it was when the code is `none`; otherwise it is fault entry with that code (R255). -/
def Answers (s : State) (code : FaultCode) (r : Result) : Prop :=
  (code = .none ∧ ∃ t, r = .next t ∧ t.fault = s.fault) ∨ (code ≠ .none ∧ ∃ addr, r = .next (faulted s code addr))

theorem answers_completes {s t : State} (h : t.fault = s.fault) : Answers s .none (.next t) := .inl ⟨rfl, t, rfl, h⟩

theorem answers_faulted (s : State) {code : FaultCode} (h : code ≠ .none) (addr : Word) : Answers s code (.next (faulted s code addr)) :=
  .inr ⟨h, addr, rfl⟩

/-- A bounds check raises OutOfBounds exactly when the access leaves memory (R251). -/
theorem answers_checkRange {s t : State} (h : t.fault = s.fault) (base : Word) (n : Nat) :
    Answers s (if RangeOk base n then .none else .outOfBounds) (s.checkRange base n (.next t)) := by
  by_cases hr : RangeOk base n
  · rw [if_pos hr, s.checkRange_inside hr]
    exact answers_completes h
  · rw [if_neg hr, s.checkRange_outside hr]
    exact answers_faulted s (by decide) _

theorem answers_execRet (s : State) : Answers s (if s.sp.val = 0 then .stackUnderflow else .none) (execRet s) := by
  obtain h | ⟨n, h⟩ := Fin.eq_zero_or_eq_succ s.sp
  · rw [if_pos (by simp [h]), execRet_empty h]
    exact answers_faulted s (by decide) 0
  · rw [if_neg (by simp [h]), execRet_succ h]
    exact answers_completes rfl

theorem answers_execCall (nnn : Addr12) (s : State) : Answers s (if s.sp.val = 16 then .stackOverflow else .none) (execCall nnn s) := by
  obtain ⟨n, h⟩ | h := Fin.eq_castSucc_or_eq_last s.sp
  · rw [if_neg (by simp [h, n.isLt.ne]), execCall_castSucc h]
    exact answers_completes rfl
  · rw [if_pos (by simp [h]), execCall_full h]
    exact answers_faulted s (by decide) 0

theorem answers_execLdKey (x : RegIx) (s : State) : Answers s .none (execLdKey x s) := by
  cases hkey : lowestKey s.keys with
  | none =>
    rw [execLdKey_noKey ((lowestKey_none _).mp hkey)]
    exact answers_completes rfl
  | some k =>
    rw [execLdKey_lowest hkey]
    exact answers_completes rfl

theorem State.writeBytes_fault (s : State) (a : Nat) (bytes : List Byte) : (s.writeBytes a bytes).fault = s.fault := by
  rw [State.writeBytes_frame]

/-- Every instruction answers a next state: it raises its code, or it completes and leaves the latch alone. -/
theorem answers_exec (i : Instr) (s : State) : Answers s (s.raised i) (exec i s) := by
  cases i with
  | ret => exact answers_execRet s
  | call nnn => exact answers_execCall nnn s
  | ldKey x => exact answers_execLdKey x s
  | drw x y n =>
    obtain ⟨v, fb, pend, rd, hdraw⟩ := s.drawSprite_frame (s.reg x) (s.reg y) s.i.toNat n.toNat
    refine answers_checkRange ?_ s.i n.toNat
    rw [hdraw]
  | storeBcd => exact answers_checkRange (s.writeBytes_fault _ _) s.i 3
  | storeRegs x => exact answers_checkRange (s.writeBytes_fault _ _) s.i (x.val + 1)
  | loadRegs x => exact answers_checkRange (s := s) (t := { s with v := s.regsLoaded x }) rfl s.i (x.val + 1)
  | seImm | sneImm | seReg | sneReg | skp | sknp => exact answers_completes (s.skipIf_fault _)
  | _ => exact answers_completes rfl

/-- On a running Machine the code latched after an instruction is the code that the instruction raises. -/
theorem fault_code_of_exec {i : Instr} {s t : State} (hrun : s.fault.code = .none) (h : exec i s = .next t) :
    t.fault.code = s.raised i := by
  obtain ⟨hnone, t', ht, hfault⟩ | ⟨-, addr, ht⟩ := answers_exec i s
  · obtain rfl := Host.Outcome.next.inj (h.symm.trans ht)
    rw [hfault, hrun, hnone]
  · obtain rfl := Host.Outcome.next.inj (h.symm.trans ht)
    rfl

/-! ## The causes of each code -/

theorem not_rangeOk_rows_iff (base : Word) (n : Nat) : ¬RangeOk base n ↔ 0 < n ∧ 0xFFF < base.toNat + n - 1 := by
  rw [rangeOk_rows_iff]
  omega

theorem raised_outOfBounds_iff (s : State) (i : Instr) :
    s.raised i = .outOfBounds ↔
      (∃ x y n, i = .drw x y n ∧ 0 < n.toNat ∧ 0xFFF < s.i.toNat + n.toNat - 1) ∨ (∃ x, i = .storeBcd x ∧ 0xFFF < s.i.toNat + 2) ∨
      (∃ x : RegIx, i = .storeRegs x ∧ 0xFFF < s.i.toNat + x.val) ∨ ∃ x : RegIx, i = .loadRegs x ∧ 0xFFF < s.i.toNat + x.val := by
  cases i with
  | drw x y n => simpa [State.raised] using not_rangeOk_rows_iff s.i n.toNat
  | storeBcd =>
    have hrange : ¬RangeOk s.i 3 ↔ 0xFFF < s.i.toNat + 2 := by rw [rangeOk_succ_iff, Nat.not_le]
    simp [State.raised, hrange]
  | storeRegs | loadRegs => simp [State.raised]
  | call | ret => simp [State.raised, ite_eq_iff]
  | _ => simp [State.raised]

theorem raised_stackOverflow_iff (s : State) (i : Instr) : s.raised i = .stackOverflow ↔ ∃ nnn, i = .call nnn ∧ s.sp.val = 16 := by
  cases i with
  | drw | storeBcd | storeRegs | loadRegs | ret => simp [State.raised, ite_eq_iff]
  | _ => simp [State.raised]

theorem raised_stackUnderflow_iff (s : State) (i : Instr) : s.raised i = .stackUnderflow ↔ ∃ ign, i = .ret ign ∧ s.sp.val = 0 := by
  cases i with
  | drw | storeBcd | storeRegs | loadRegs | call => simp [State.raised, ite_eq_iff]
  | _ => simp [State.raised]

/-- UnknownOpcode is never raised (R259). -/
theorem raised_ne_unknownOpcode (s : State) (i : Instr) : s.raised i ≠ .unknownOpcode := by
  cases i with
  | drw | storeBcd | storeRegs | loadRegs | call | ret =>
    rw [State.raised]
    split <;> decide
  | _ => exact FaultCode.noConfusion

/-! ## TICK (R268) -/

/-- TICK in one record: the timer one down but not below 0, RD clear, and a frame emitted if RD was raised. -/
theorem tick_eq (s : State) :
    tick s = { s with
      dt := if s.dt.toNat > 0 then s.dt - 1 else s.dt
      rd := false
      outputs := s.outputs ++ if s.rd = true then [.frame s.fb] else [] } := by
  unfold tick
  cases hrd : s.rd with
  | true => split <;> simp [hrd, State.emit]
  | false =>
    split <;> simp only [hrd, Bool.false_eq_true, if_false, List.append_nil]
    rw [← hrd]

theorem tick_rd (s : State) : (tick s).rd = false := by rw [tick_eq]

theorem tick_outputs (s : State) : (tick s).outputs = s.outputs ++ if s.rd = true then [.frame s.fb] else [] := by rw [tick_eq]

theorem toNat_tick_dt (s : State) : (tick s).dt.toNat = s.dt.toNat - 1 := by
  rw [tick_eq]
  dsimp only
  split
  case isTrue h => exact BitVec.toNat_sub_of_le h
  case isFalse h => omega

/-! ## One key of the pressed-key set (R270) -/

theorem getLsbD_keyBit (c : Nibble) (k : Nat) : (1#16 <<< c.toNat).getLsbD k = decide (k = c.toNat) := by
  rw [← BitVec.twoPow_eq, BitVec.getLsbD_twoPow]
  simp [c.isLt, eq_comm]

theorem getLsbD_keyDown (c : Nibble) (s : State) (k : Nat) :
    (keyDown c s).keys.getLsbD k = (decide (k = c.toNat) || s.keys.getLsbD k) := by
  rw [keyDown, BitVec.getLsbD_or, getLsbD_keyBit, Bool.or_comm]

/-- Above the sixteen keys both sides are false. -/
theorem getLsbD_keyUp (c : Nibble) (s : State) (k : Nat) :
    (keyUp c s).keys.getLsbD k = (decide (k ≠ c.toNat) && s.keys.getLsbD k) := by
  rw [keyUp, BitVec.getLsbD_and, BitVec.getLsbD_not, getLsbD_keyBit, decide_not, Bool.and_comm]
  by_cases hk : k < 16
  · simp [hk]
  · simp [BitVec.getLsbD_of_ge _ _ (Nat.le_of_not_lt hk)]

end Sys2Proof.Machine

namespace Sys2Proof.Proofs

open Sys2Proof.Machine Sys2Proof.Claim

/-- Settles O11: the code latched is the code raised, whose causes are read off the instruction. -/
theorem faultCauses : Obligations.FaultCauses := by
  intro i s t hrun h
  rw [fault_code_of_exec hrun h]
  exact ⟨raised_outOfBounds_iff s i, raised_stackOverflow_iff s i, raised_stackUnderflow_iff s i, raised_ne_unknownOpcode s i⟩

/-! ## A STEP -/

theorem stepOnce_halted {s : State} (h : s.fault.code ≠ .none) : stepOnce s = .next s := if_pos (s.halted_iff.mpr h)

/-- A STEP of a running Machine leaves the latch empty, or changes nothing but the latch, which then names PC (R254, R255). -/
theorem stepOnce_running {s : State} (hrun : s.fault.code = .none) :
    ∃ t, stepOnce s = .next t ∧
      (t.fault = s.fault ∨ ∃ code addr, code ≠ .unknownOpcode ∧ t = { s with fault := ⟨code, s.pc, addr⟩ }) := by
  by_cases hpc : RangeOk s.pc 2
  · rw [stepOnce_fetched hrun hpc]
    obtain ⟨-, t, ht, hfault⟩ | ⟨-, addr, ht⟩ := answers_exec (decodeWord s.fetchWord) { s with pc := s.pc + 2 }
    · exact ⟨t, ht, .inl hfault⟩
    · refine ⟨_, ht, .inr ⟨_, addr, raised_ne_unknownOpcode { s with pc := s.pc + 2 } (decodeWord s.fetchWord), ?_⟩⟩
      rw [faulted, BitVec.add_sub_cancel]
  · exact ⟨_, stepOnce_outside hrun hpc, .inr ⟨_, _, by decide, rfl⟩⟩

theorem stepOnce_font {s t : State} (h : stepOnce s = .next t) : t.font = s.font := by
  by_cases hrun : s.fault.code = .none
  · by_cases hpc : RangeOk s.pc 2
    · rw [stepOnce_fetched hrun hpc] at h
      obtain ⟨-, -, -, hfont, -⟩ := whoWritesIndexTimerPorts _ _ _ h
      exact hfont
    · obtain rfl := Host.Outcome.next.inj ((stepOnce_outside hrun hpc).symm.trans h)
      rfl
  · obtain rfl := Host.Outcome.next.inj ((stepOnce_halted hrun).symm.trans h)
    rfl

/-- STEP's returned value is read off the latch in every state. -/
theorem returnsLatch (t : State) : ReturnsLatch t := by
  refine ⟨?_, ?_, ?_, ?_⟩ <;>
  · intro h
    rw [State.stepResult, h]

/-! ## Any operation -/

/-- What `State.nextOperation` computes is what `ComesNext` names. -/
theorem comesNext_nextOperation (s : State) : ComesNext s s.nextOperation.1 s.nextOperation.2 := by
  match hs : s.schedule, hr : s.scheduler with
  | op :: rest, _ => rw [State.nextOperation_waiting hs]; exact .inl ⟨rest, hs, rfl⟩
  | [], .round [] => rw [State.nextOperation_steps hs hr]; exact .inr ⟨hs, .inr (.inl ⟨hr, rfl, rfl⟩)⟩
  | [], .round (op :: rest) => rw [State.nextOperation_round hs hr]; exact .inr ⟨hs, .inl ⟨rest, hr, rfl⟩⟩
  | [], .free turn => rw [State.nextOperation_free hs hr]; exact .inr ⟨hs, .inr (.inr ⟨turn, hr, rfl, rfl⟩)⟩

/-- LOAD, TICK and the key operations reach the timer, RD, the keys, memory and the outputs at most. -/
theorem runOperation_frame {op : Operation} (hstep : op ≠ .step) (hreset : op ≠ .reset) {s t : State} (h : runOperation op s = .next t) :
    t = { s with dt := t.dt, rd := t.rd, keys := t.keys, mem := t.mem, outputs := t.outputs } := by
  cases op with
  | step => exact absurd rfl hstep
  | reset => exact absurd rfl hreset
  | load =>
    obtain rfl := Host.Outcome.next.inj h
    rw [load_frame]
  | tick =>
    obtain rfl := Host.Outcome.next.inj h
    rw [tick_eq]
  | keyDown | keyUp =>
    obtain rfl := Host.Outcome.next.inj h
    rfl

theorem runOperation_next (op : Operation) (s : State) : ∃ t, runOperation op s = .next t := by
  cases op with
  | step =>
    by_cases hrun : s.fault.code = .none
    · obtain ⟨t, ht, -⟩ := stepOnce_running hrun
      exact ⟨t, ht⟩
    · exact ⟨s, stepOnce_halted hrun⟩
  | _ => exact ⟨_, rfl⟩

theorem runOperation_font {op : Operation} {s t : State} (h : runOperation op s = .next t) : t.font = s.font := by
  cases op with
  | step => exact stepOnce_font h
  | reset =>
    obtain rfl := Host.Outcome.next.inj h
    rfl
  | _ => rw [runOperation_frame (by simp) (by simp) h]

/-- On a running Machine only a STEP can latch a fault, and then it changes nothing else. -/
theorem runOperation_running {op : Operation} {s t : State} (hrun : s.fault.code = .none) (h : runOperation op s = .next t) :
    t.fault.code = .none ∨ op = .step ∧ ∃ code addr, code ≠ .unknownOpcode ∧ t = { s with fault := ⟨code, s.pc, addr⟩ } := by
  cases op with
  | step =>
    obtain ⟨t', ht, hcases⟩ := stepOnce_running hrun
    obtain rfl := Host.Outcome.next.inj (ht.symm.trans h)
    exact hcases.imp (fun hfault => by rw [hfault, hrun]) fun hlatched => ⟨rfl, hlatched⟩
  | reset =>
    obtain rfl := Host.Outcome.next.inj h
    exact .inl rfl
  | _ =>
    rw [runOperation_frame (by simp) (by simp) h]
    exact .inl hrun

/-- On a halted Machine no operation but RESET reaches more than LOAD, TICK and the keys do (R256). -/
theorem runOperation_halted_frame {op : Operation} {s t : State} (hhalted : s.fault.code ≠ .none) (hreset : op ≠ .reset)
    (h : runOperation op s = .next t) :
    t = { s with dt := t.dt, rd := t.rd, keys := t.keys, mem := t.mem, outputs := t.outputs } := by
  by_cases hstep : op = .step
  · subst hstep
    obtain rfl := Host.Outcome.next.inj ((stepOnce_halted hhalted).symm.trans h)
    rfl
  · exact runOperation_frame hstep hreset h

/-- Settles O7: `State.nextOperation` is the one operation, and every operation answers a next state. -/
theorem everyStepHasNext : Obligations.EveryStepHasNext := by
  intro s
  obtain ⟨t, ht⟩ := runOperation_next s.nextOperation.1 s.nextOperation.2
  refine ⟨_, _, t, comesNext_nextOperation s, fun op u hnext => ?unique, ht, ?font⟩
  case unique => simp [nextOperation_of_comesNext hnext]
  case font => rw [runOperation_font ht, s.nextOperation_frame]

/-- Settles O6: the operation taken leaves the latch, and the halted STEP leaves everything. -/
theorem haltedStepChangesNothing : Obligations.HaltedStepChangesNothing := by
  intro s u hnext hhalted
  have hfault : u.fault = s.fault := by rw [comesNext_frame hnext]
  exact ⟨(step_of_comesNext hnext).trans (stepOnce_halted (hfault ▸ hhalted)), hfault, returnsLatch u⟩

/-- Settles O10: a latched fault comes from a STEP that changed nothing else. -/
theorem faultsArePrecise : Obligations.FaultsArePrecise := by
  intro s u t op hrun hnext h
  have hfault : u.fault = s.fault := by rw [comesNext_frame hnext]
  have hpc : u.pc = s.pc := by rw [comesNext_frame hnext]
  rw [step_of_comesNext hnext] at h
  refine ⟨returnsLatch t, ?_⟩
  obtain hnone | ⟨hstep, code, addr, hcode, rfl⟩ := runOperation_running (hfault ▸ hrun) h
  · exact ⟨by simp [hnone], fun hlatched => absurd hnone hlatched⟩
  · exact ⟨hcode, fun _ => ⟨hstep, by rw [hpc]⟩⟩

/-- Settles O12: the fields of the statement lie outside what the other operations reach on a halted Machine. -/
theorem onlyResetClearsFault : Obligations.OnlyResetClearsFault := by
  intro s t hhalted h hreset
  have hnext := comesNext_nextOperation s
  have hne : s.nextOperation.1 ≠ .reset := fun hop => hreset _ (hop ▸ hnext)
  have hfault : s.nextOperation.2.fault = s.fault := by rw [s.nextOperation_frame]
  rw [runOperation_halted_frame (hfault ▸ hhalted) hne h, s.nextOperation_frame]
  exact ⟨rfl, rfl, rfl, rfl, rfl, rfl, rfl, rfl⟩

/-! ## What an operation leaves as it was -/

theorem kept_trans {s t u : State} {e : Element} (hst : Kept s t e) (htu : Kept t u e) : Kept s u e := by
  cases e with
  | stack | memory => exact fun k => (htu k).trans (hst k)
  | fb | pend => exact fun x y => (htu x y).trans (hst x y)
  | _ => exact Eq.trans htu hst

theorem keptBut_trans {touched : List Element} {s t u : State} (hst : KeptBut touched s t) (htu : KeptBut touched t u) :
    KeptBut touched s u := fun e he => kept_trans (hst e he) (htu e he)

theorem keptBut_mono {touched touched' : List Element} (hsub : touched ⊆ touched') {s t : State} (h : KeptBut touched s t) :
    KeptBut touched' s t := fun e he => h e (mt (@hsub e) he)

theorem keptBut_tick (s : State) : KeptBut [.dt, .rd, .outputs] s (tick s) := by
  intro e he
  have same := kept_refl s e
  rw [tick_eq]
  cases e with
  | dt | rd | outputs => simp at he
  | _ => exact same

theorem keptBut_keys (s : State) (keys : BitVec 16) : KeptBut [.keys] s { s with keys := keys } := by
  intro e he
  have same := kept_refl s e
  cases e with
  | keys => simp at he
  | _ => exact same

theorem keptBut_schedule (s : State) (waiting : List Operation) : KeptBut [.schedule] s { s with schedule := waiting } := by
  intro e he
  have same := kept_refl s e
  cases e with
  | schedule => simp at he
  | _ => exact same

/-! ## TICK -/

/-- Settles O13: the operation taken leaves the timer, RD, F and the outputs as TICK finds them. -/
theorem tickEffect : Obligations.TickEffect := by
  intro s u hnext
  have hdt : u.dt = s.dt := by rw [comesNext_frame hnext]
  have houtputs : (tick u).outputs = s.outputs ++ if s.rd = true then [.frame s.fb] else [] := by
    rw [tick_outputs, comesNext_frame hnext]
  refine ⟨tick u, step_of_comesNext hnext, hdt ▸ toNat_tick_dt u, tick_rd u, fun hrd => ?_, fun hrd => ?_, keptBut_tick u⟩
  · rw [houtputs, if_pos hrd]
  · rw [houtputs, if_neg (Bool.eq_false_iff.mp hrd), List.append_nil]

/-- The next n operations are TICKs with `rest` waiting after them: they wait in the schedule, or the scheduler chooses TICKs without end. -/
def TicksNext (n : Nat) (rest : List Operation) (s : State) : Prop :=
  s.schedule = List.replicate n .tick ++ rest ∨ s.schedule = [] ∧ rest = [] ∧ s.scheduler = .round [.tick]

theorem TicksNext.schedule_eq {rest : List Operation} {s : State} (h : TicksNext 0 rest s) : s.schedule = rest := by
  obtain hwaiting | ⟨hempty, hrest, -⟩ := h
  · exact hwaiting
  · rw [hempty, hrest]

/-- The first of n + 1 TICKs is taken, and n follow it. -/
theorem TicksNext.first {n : Nat} {rest : List Operation} {s : State} (h : TicksNext (n + 1) rest s) :
    ∃ waiting, ComesNext s .tick { s with schedule := waiting } ∧ TicksNext n rest (tick { s with schedule := waiting }) := by
  obtain hwaiting | ⟨hempty, hrest, hround⟩ := h
  · exact ⟨List.replicate n .tick ++ rest, .inl ⟨_, hwaiting, rfl⟩, .inl (by rw [tick_eq])⟩
  · exact ⟨[], .inr ⟨hempty, .inl ⟨[], hround, rfl⟩⟩, .inr ⟨by rw [tick_eq], hrest, by rw [tick_eq]; exact hround⟩⟩

theorem run_succ {M : Host.Core} {s t : M.State} (h : M.step s = .next t) (n : Nat) : M.run (n + 1) s = M.run n t := by
  rw [Host.Core.run, h]

/-- Settles O14: by induction on n; the first TICK clears RD, so the later ones emit nothing. -/
theorem ticksCountDownAndEmitOnce : Obligations.TicksCountDownAndEmitOnce := by
  intro n s rest h
  replace h : TicksNext n rest s := h
  induction n generalizing s with
  | zero => exact ⟨s, rfl, rfl, h.schedule_eq, by simp, fun e _ => kept_refl s e⟩
  | succ n ih =>
    obtain ⟨waiting, hnext, hticks⟩ := h.first
    obtain ⟨t, hrun, hdt, hschedule, houtputs, hkept⟩ := ih _ hticks
    refine ⟨t, (run_succ (M := core) (step_of_comesNext hnext) n).trans hrun, ?dt, hschedule, ?outputs, ?kept⟩
    case dt =>
      have hfirst : (tick { s with schedule := waiting }).dt.toNat = s.dt.toNat - 1 := toNat_tick_dt _
      omega
    case outputs => simp [houtputs, tick_rd, tick_outputs]
    case kept =>
      have htaken : KeptBut [.dt, .rd, .schedule, .outputs] s { s with schedule := waiting } :=
        keptBut_mono (by simp) (keptBut_schedule s waiting)
      exact keptBut_trans (keptBut_trans htaken (keptBut_mono (by simp) (keptBut_tick _))) hkept

/-! ## The keys -/

/-- Settles O15: bit by bit. -/
theorem keyOperations : Obligations.KeyOperations := by
  intro s u c
  refine ⟨fun hnext => ?down, fun hnext => ?up⟩
  case down =>
    have hkeys : u.keys = s.keys := by rw [comesNext_frame hnext]
    exact ⟨keyDown c u, step_of_comesNext hnext, keptBut_keys u _, fun k => hkeys ▸ getLsbD_keyDown c u k⟩
  case up =>
    have hkeys : u.keys = s.keys := by rw [comesNext_frame hnext]
    exact ⟨keyUp c u, step_of_comesNext hnext, keptBut_keys u _, fun k => hkeys ▸ getLsbD_keyUp c u k⟩

end Sys2Proof.Proofs
end

section
/-! PROOFS. Program load, RESET and the finished program (spec/70_reset_and_hazards.md). -/

namespace Sys2Proof.Machine

/-! ## LOAD (R303) -/

theorem load_fits {bytes : List Byte} (h : bytes.length ≤ 3584) (s : State) : load bytes s = s.writeBytes 0x200 bytes := by
  rw [load, loadResult_ok h]

theorem load_tooLarge {bytes : List Byte} (h : 3584 < bytes.length) (s : State) : load bytes s = s := by
  rw [load, loadResult_tooLarge h]

/-! ## RESET (R300) -/

/-- Memory lists nothing, so every address reads as the reset contents of the machine's own font. -/
theorem readByte_resetMachine (s : State) (a : Nat) : (resetMachine s).readByte a = initialByte s.font a := rfl

end Sys2Proof.Machine

namespace Sys2Proof.Proofs

open Sys2Proof.Machine Sys2Proof.Claim

/-! ## The operations LOAD and RESET -/

/-- Settles O16: the operation taken leaves memory as LOAD finds it. -/
theorem loadEffect : Obligations.LoadEffect := by
  intro s u bytes hnext
  have hstep : step s = .next (load bytes u) := step_of_comesNext hnext
  refine ⟨fun hfits => ?fits, fun hlarge => ?tooLarge⟩
  case fits =>
    have hmem : ∀ a, u.readByte a = s.readByte a := by
      rw [comesNext_frame hnext]
      exact fun _ => rfl
    rw [load_fits hfits] at hstep
    exact ⟨loadResult_ok hfits, _, hstep, keptBut_writeBytes u _ bytes, fun k hk => u.readByte_writeBytes_at _ bytes hk,
      fun a ha => (memoryKeptOutside_writeBytes u _ bytes a ha).trans (hmem a)⟩
  case tooLarge =>
    rw [load_tooLarge hlarge] at hstep
    exact ⟨loadResult_tooLarge hlarge, hstep⟩

/-- RESET differs from the reset state in the model's own fields, and in memory through the font. -/
theorem keptBut_resetMachine (s : State) :
    KeptBut [.memory, .font, .schedule, .scheduler, .outputs, .draws] State.reset (resetMachine s) := by
  intro e he
  have same := kept_refl State.reset e
  cases e with
  | memory | font | schedule | scheduler | outputs | draws => simp at he
  | _ => exact same

/-- Settles O17: the operation taken leaves the font that RESET writes to memory. -/
theorem resetOperation : Obligations.ResetOperation := by
  intro s u hnext
  have hfont : u.font = s.font := by rw [comesNext_frame hnext]
  exact ⟨resetMachine u, step_of_comesNext hnext, keptBut_mono (by simp) (keptBut_resetMachine u),
    fun a _ => hfont ▸ readByte_resetMachine u a, rfl, rfl, rfl, rfl, rfl⟩

/-! ## The finished program -/

/-- The jump takes PC back from the next instruction to its own address (R309). -/
theorem stepOnce_finished {s : State} (h : s.finished) : stepOnce s = .next s := by
  obtain ⟨hrun, hfetch, nnn, hjump, htarget⟩ := h
  calc stepOnce s
    _ = exec (.jp nnn) { s with pc := s.pc + 2 } := by rw [stepOnce_fetched hrun hfetch, hjump]
    _ = .next { s with pc := extAddr nnn } := rfl
    _ = .next s := by rw [htarget]

/-- Settles O30: the operation taken leaves the program finished. -/
theorem finishedIsFixedPoint : Obligations.FinishedIsFixedPoint := by
  intro s u hfinished hnext
  have hu : u.finished := by
    rw [comesNext_frame hnext]
    exact hfinished
  exact (step_of_comesNext hnext).trans (stepOnce_finished hu)

end Sys2Proof.Proofs
end

section
/-! PROOFS. The decoder and the encoder as inverse functions (spec/30_encoding.md). -/

namespace Sys2Proof.Proofs

/-! ## From an instruction to its word and back -/

theorem decodeWord_encode {i : Instr} : i.wellFormed = true → decodeWord (encode i) = i :=
  match i with
  | .cls ign => Laws.RoundTrip.cls ign
  | .ret ign => Laws.RoundTrip.ret ign
  | .jp nnn => Laws.RoundTrip.jp nnn
  | .call nnn => Laws.RoundTrip.call nnn
  | .seImm x nn => Laws.RoundTrip.seImm x nn
  | .sneImm x nn => Laws.RoundTrip.sneImm x nn
  | .seReg x y ign => Laws.RoundTrip.seReg x y ign
  | .ldImm x nn => Laws.RoundTrip.ldImm x nn
  | .addImm x nn => Laws.RoundTrip.addImm x nn
  | .ldReg x y => Laws.RoundTrip.ldReg x y
  | .orReg x y => Laws.RoundTrip.orReg x y
  | .andReg x y => Laws.RoundTrip.andReg x y
  | .xorReg x y => Laws.RoundTrip.xorReg x y
  | .addReg x y => Laws.RoundTrip.addReg x y
  | .subReg x y => Laws.RoundTrip.subReg x y
  | .shr x ign => Laws.RoundTrip.shr x ign
  | .subnReg x y => Laws.RoundTrip.subnReg x y
  | .shl x ign => Laws.RoundTrip.shl x ign
  | .sneReg x y ign => Laws.RoundTrip.sneReg x y ign
  | .ldI nnn => Laws.RoundTrip.ldI nnn
  | .jpV0 nnn => Laws.RoundTrip.jpV0 nnn
  | .rnd x nn => Laws.RoundTrip.rnd x nn
  | .drw x y n => Laws.RoundTrip.drw x y n
  | .skp x => Laws.RoundTrip.skp x
  | .sknp x => Laws.RoundTrip.sknp x
  | .ldDt x => Laws.RoundTrip.ldDt x
  | .ldKey x => Laws.RoundTrip.ldKey x
  | .setDt x => Laws.RoundTrip.setDt x
  | .setSound x => Laws.RoundTrip.setSound x
  | .addI x => Laws.RoundTrip.addI x
  | .ldFont x => Laws.RoundTrip.ldFont x
  | .storeBcd x => Laws.RoundTrip.storeBcd x
  | .storeRegs x => Laws.RoundTrip.storeRegs x
  | .loadRegs x => Laws.RoundTrip.loadRegs x
  | .rsv0 x nn => Laws.RoundTrip.rsv0 x nn
  | .rsv8 x y n => Laws.RoundTrip.rsv8 x y n
  | .rsvE x nn => Laws.RoundTrip.rsvE x nn
  | .nopF x nn => Laws.RoundTrip.nopF x nn

/-! ## From a word to its instruction and back -/

/-- The instruction is well-formed, and the word is its word. -/
def EncodesTo (i : Instr) (op : Word) : Prop := i.wellFormed = true ∧ encode i = op

section
variable {op : Word} {g : Fin 16} (hg : fieldGroup op = g)
include hg

/-! A word of a known group is that group packed with the word's other fields, by the format's layout (R112). -/

theorem packA_of_group : packA (.ofFin g) (fieldNNN op) = op := by
  apply BitVec.eq_of_toNat_eq
  rw [← hg, toNat_packA, toNat_fieldNNN, BitVec.toNat_ofFin, val_fieldGroup]
  omega

theorem packI_of_group : packI (.ofFin g) (nibbleX op) (fieldNN op) = op := hg ▸ packI_fields op

theorem packI_of_subcode {nn : Byte} (hnn : fieldNN op = nn) : packI (.ofFin g) (nibbleX op) nn = op := hnn ▸ packI_of_group hg

theorem packR_of_group : packR (.ofFin g) (nibbleX op) (nibbleY op) (fieldN op) = op := hg ▸ packR_fields op

end

theorem decodeGroup0_encodesTo {op : Word} (hg : fieldGroup op = 0x0) : EncodesTo (decodeGroup0 op) op := by
  unfold decodeGroup0
  split_ifs with hcls hret
  · exact ⟨rfl, packI_of_subcode hg hcls⟩
  · exact ⟨rfl, packI_of_subcode hg hret⟩
  · exact ⟨by simp [Instr.wellFormed, definedIn0, hcls, hret], packI_of_group hg⟩

theorem decodeGroupE_encodesTo {op : Word} (hg : fieldGroup op = 0xE) : EncodesTo (decodeGroupE op) op := by
  unfold decodeGroupE
  split_ifs with hskp hsknp
  · exact ⟨rfl, packI_of_subcode hg hskp⟩
  · exact ⟨rfl, packI_of_subcode hg hsknp⟩
  · exact ⟨by simp [Instr.wellFormed, definedInE, hskp, hsknp], packI_of_group hg⟩

/-- Nine defined sub-codes, each the condition of its branch; the last branch has none of them. -/
theorem decodeGroupF_encodesTo {op : Word} (hg : fieldGroup op = 0xF) : EncodesTo (decodeGroupF op) op := by
  unfold decodeGroupF
  split_ifs
  case neg => exact ⟨by simp [Instr.wellFormed, definedInF, *], packI_of_group hg⟩
  all_goals exact ⟨rfl, packI_of_subcode hg ‹fieldNN op = _›⟩

/-- Each of the sixteen sub-codes selects a branch, whose instruction is packed with that sub-code. -/
theorem decodeGroup8_encodesTo {op : Word} (hg : fieldGroup op = 0x8) : EncodesTo (decodeGroup8 op) op := by
  have hop := packR_of_group hg
  unfold decodeGroup8
  generalize fieldN op = n at hop ⊢
  obtain ⟨n⟩ := n
  fin_cases n <;> exact ⟨rfl, hop⟩

theorem decodeWord_encodesTo (op : Word) : EncodesTo (decodeWord op) op := by
  generalize hg : fieldGroup op = g
  fin_cases g
  · rw [decodeWord_group0 hg]; exact decodeGroup0_encodesTo hg
  · rw [decodeWord_group1 hg]; exact ⟨rfl, packA_of_group hg⟩
  · rw [decodeWord_group2 hg]; exact ⟨rfl, packA_of_group hg⟩
  · rw [decodeWord_group3 hg]; exact ⟨rfl, packI_of_group hg⟩
  · rw [decodeWord_group4 hg]; exact ⟨rfl, packI_of_group hg⟩
  · rw [decodeWord_group5 hg]; exact ⟨rfl, packR_of_group hg⟩
  · rw [decodeWord_group6 hg]; exact ⟨rfl, packI_of_group hg⟩
  · rw [decodeWord_group7 hg]; exact ⟨rfl, packI_of_group hg⟩
  · rw [decodeWord_group8 hg]; exact decodeGroup8_encodesTo hg
  · rw [decodeWord_group9 hg]; exact ⟨rfl, packR_of_group hg⟩
  · rw [decodeWord_groupA hg]; exact ⟨rfl, packA_of_group hg⟩
  · rw [decodeWord_groupB hg]; exact ⟨rfl, packA_of_group hg⟩
  · rw [decodeWord_groupC hg]; exact ⟨rfl, packI_of_group hg⟩
  · rw [decodeWord_groupD hg]; exact ⟨rfl, packR_of_group hg⟩
  · rw [decodeWord_groupE hg]; exact decodeGroupE_encodesTo hg
  · rw [decodeWord_groupF hg]; exact decodeGroupF_encodesTo hg

/-- Settles O2: forth by the round trip of each constructor, back by group and sub-code. -/
theorem decodeEncodeInverse : Obligations.DecodeEncodeInverse := ⟨fun _ => decodeWord_encode, decodeWord_encodesTo⟩

/-- Settles O1: the decoder evaluated on each word. -/
theorem sampleWordsDecode : Obligations.SampleWordsDecode := by
  unfold Obligations.SampleWordsDecode
  decide

end Sys2Proof.Proofs
end

section
/-! PROOFS. The invariant of every step (spec/10_state.md R46): canonical memory and a consistent fault latch. -/

namespace Sys2Proof.Machine

open Sys2Proof.Claim

/-! ## The invariant by its parts -/

/-- A fault latched with this code and address meets the invariant's clauses about the latch. -/
structure Raisable (code : FaultCode) (addr : Word) : Prop where
  latched : code ≠ .none
  known : code ≠ .unknownOpcode
  outside : code = .outOfBounds → Config.memSize ≤ addr.toNat
  stackFault : code = .stackOverflow ∨ code = .stackUnderflow → addr = 0

theorem raisable_outOfBounds (base : Word) : Raisable .outOfBounds (firstOutside base) :=
  ⟨by decide, by decide, fun _ => firstOutside_outside base, by simp⟩

theorem raisable_stackOverflow : Raisable .stackOverflow 0 := ⟨by decide, by decide, by simp, fun _ => rfl⟩

theorem raisable_stackUnderflow : Raisable .stackUnderflow 0 := ⟨by decide, by decide, by simp, fun _ => rfl⟩

/-- Fault entry reaches a state of the invariant: PC stands at the address latched. -/
theorem State.inv_latchFault {s : State} (hmem : s.mem.wf s.font) {code : FaultCode} {addr : Word} (hraise : Raisable code addr)
    (pc0 : Word) : (s.latchFault code pc0 addr).Inv where
  memory := hmem
  known := hraise.known
  running hnone := absurd hnone hraise.latched
  stopped _ := rfl
  outside := hraise.outside
  stackFault := hraise.stackFault

/-- What keeps memory canonical and the latch as it is keeps the invariant, if PC stays on a halted Machine. -/
theorem State.Inv.of_fault_eq {s t : State} (hs : s.Inv) (hmem : t.mem.wf t.font) (hfault : t.fault = s.fault)
    (hpc : s.fault.code ≠ .none → t.pc = s.pc) : t.Inv where
  memory := hmem
  known := hfault ▸ hs.known
  running := hfault ▸ hs.running
  stopped := hfault ▸ fun hhalted => (hpc hhalted).trans (hs.stopped hhalted)
  outside := hfault ▸ hs.outside
  stackFault := hfault ▸ hs.stackFault

/-! ## Memory after an instruction -/

/-- A checked store of n bytes stays inside the address space, or does not happen. -/
theorem checkedStore_wf {s t : State} (hmem : s.mem.wf s.font) {bytes : List Byte} {n : Nat} (hlen : bytes.length = n + 1)
    (h : s.checkRange s.i (n + 1) (.next (s.writeBytes (s.addrAt 0) bytes)) = .next t) : t.mem.wf t.font := by
  by_cases hr : RangeOk s.i (n + 1)
  · rw [s.checkRange_inside hr] at h
    obtain rfl := Host.Outcome.next.inj h
    have hfits : s.addrAt 0 + bytes.length ≤ Config.memSize := by
      rw [rangeOk_succ_iff] at hr
      rw [hlen, State.addrAt, memSize_eq]
      omega
    rw [State.writeBytes_font]
    exact State.wf_writeBytes hmem _ bytes hfits
  · rw [s.checkRange_outside hr] at h
    obtain rfl := Host.Outcome.next.inj h
    exact hmem

/-- Only FX33 and FX55 write memory, each behind its bounds check. -/
theorem exec_wf {i : Instr} {s t : State} (hmem : s.mem.wf s.font) (h : exec i s = .next t) : t.mem.wf t.font := by
  have hframe := exec_frame h
  cases i with
  | storeBcd => exact checkedStore_wf (n := 2) hmem rfl h
  | storeRegs x => exact checkedStore_wf hmem (length_regsUpTo s x) h
  | _ => rw [hframe]; exact hmem

/-! ## The latch after an instruction -/

/-- The latch is as it was, or the answer is fault entry with a fault that can be raised (R255). -/
def LatchesOnly (s t : State) : Prop := t.fault = s.fault ∨ ∃ code addr, Raisable code addr ∧ t = faulted s code addr

theorem latchesOnly_checkRange {s t u : State} {base : Word} {n : Nat} (h : s.checkRange base n (.next u) = .next t)
    (hu : u.fault = s.fault) : LatchesOnly s t := by
  obtain rfl | rfl := State.checkRange_next h
  · exact .inl hu
  · exact .inr ⟨_, _, raisable_outOfBounds base, rfl⟩

theorem latchesOnly_execRet {s t : State} (h : execRet s = .next t) : LatchesOnly s t := by
  obtain hsp | ⟨n, hsp⟩ := Fin.eq_zero_or_eq_succ s.sp
  · obtain rfl := Host.Outcome.next.inj ((execRet_empty hsp).symm.trans h)
    exact .inr ⟨_, _, raisable_stackUnderflow, rfl⟩
  · obtain rfl := Host.Outcome.next.inj ((execRet_succ hsp).symm.trans h)
    exact .inl rfl

theorem latchesOnly_execCall {nnn : Addr12} {s t : State} (h : execCall nnn s = .next t) : LatchesOnly s t := by
  obtain ⟨n, hsp⟩ | hsp := Fin.eq_castSucc_or_eq_last s.sp
  · obtain rfl := Host.Outcome.next.inj ((execCall_castSucc hsp nnn).symm.trans h)
    exact .inl rfl
  · obtain rfl := Host.Outcome.next.inj ((execCall_full hsp nnn).symm.trans h)
    exact .inr ⟨_, _, raisable_stackOverflow, rfl⟩

theorem exec_latchesOnly {i : Instr} {s t : State} (h : exec i s = .next t) : LatchesOnly s t := by
  have hframe := exec_frame h
  cases i with
  | ret => exact latchesOnly_execRet h
  | call => exact latchesOnly_execCall h
  | drw x y n =>
    obtain ⟨v, fb, pend, rd, hdraw⟩ := s.drawSprite_frame (s.reg x) (s.reg y) s.i.toNat n.toNat
    exact latchesOnly_checkRange h (by rw [hdraw])
  | storeBcd | storeRegs => exact latchesOnly_checkRange h (s.writeBytes_fault _ _)
  | loadRegs => exact latchesOnly_checkRange h rfl
  | _ => rw [hframe]; exact .inl rfl

end Sys2Proof.Machine

namespace Sys2Proof.Proofs

open Sys2Proof.Machine

/-! ## The operations -/

theorem resetMachine_inv (s : State) : (resetMachine s).Inv where
  memory := Memory.wf_nil
  known := nofun
  running _ := ⟨rfl, rfl⟩
  stopped hhalted := absurd rfl hhalted
  outside := nofun
  stackFault _ := rfl

/-- A STEP, by whether the Machine is halted and whether the fetch lies in memory; after the fetch PC is past the instruction, and a
fault takes it back. -/
theorem stepOnce_inv {s t : State} (hs : s.Inv) (h : stepOnce s = .next t) : t.Inv := by
  by_cases hrun : s.fault.code = .none
  · by_cases hpc : RangeOk s.pc 2
    · rw [stepOnce_fetched hrun hpc] at h
      obtain hfault | ⟨code, addr, hraise, rfl⟩ := exec_latchesOnly h
      · exact hs.of_fault_eq (exec_wf (s := { s with pc := s.pc + 2 }) hs.memory h) hfault fun hhalted => absurd hrun hhalted
      · exact State.inv_latchFault (s := { s with pc := s.pc + 2 }) hs.memory hraise _
    · obtain rfl := Host.Outcome.next.inj ((stepOnce_outside hrun hpc).symm.trans h)
      exact State.inv_latchFault hs.memory (raisable_outOfBounds s.pc) s.pc
  · obtain rfl := Host.Outcome.next.inj ((stepOnce_halted hrun).symm.trans h)
    exact hs

/-- LOAD keeps memory canonical; TICK and the key operations reach neither memory nor PC nor the latch. -/
theorem runOperation_inv {op : Operation} {s t : State} (hs : s.Inv) (h : runOperation op s = .next t) : t.Inv := by
  cases op with
  | step => exact stepOnce_inv hs h
  | reset =>
    obtain rfl := Host.Outcome.next.inj h
    exact resetMachine_inv s
  | load bytes =>
    obtain rfl := Host.Outcome.next.inj h
    have hmem := load_wf bytes hs.memory
    rw [load_frame]
    exact hs.of_fault_eq hmem rfl fun _ => rfl
  | tick =>
    obtain rfl := Host.Outcome.next.inj h
    rw [tick_eq]
    exact hs.of_fault_eq hs.memory rfl fun _ => rfl
  | keyDown | keyUp =>
    obtain rfl := Host.Outcome.next.inj h
    exact hs.of_fault_eq hs.memory rfl fun _ => rfl

/-- Settles O8: the reset state is what RESET makes of itself. -/
theorem resetMeetsInvariant : Obligations.ResetMeetsInvariant := resetMachine_inv State.reset

/-- Settles O9: the operation taken leaves memory, PC and the latch, and every operation keeps the invariant. -/
theorem stepKeepsInvariant : Obligations.StepKeepsInvariant := by
  intro s t hs h
  have hnext : s.nextOperation.2.Inv := by
    rw [s.nextOperation_frame]
    exact hs.of_fault_eq hs.memory rfl fun _ => rfl
  exact runOperation_inv hnext h

end Sys2Proof.Proofs
end

section
/-! PROOFS. The canonical form of memory is the only one for its bytes (assumption log 19). -/

namespace Sys2Proof.Machine

/-! ## Canonical memory, cell by cell -/

variable {font : Font}

theorem Memory.read_of_not_listed {m : Memory} {a : Nat} (h : ∀ c ∈ m, c.1 ≠ a) : m.read font a = initialByte font a := by
  induction m with
  | nil => rfl
  | cons c rest ih =>
    rw [Memory.read, if_neg (h c List.mem_cons_self)]
    exact ih fun d hd => h d (List.mem_cons_of_mem c hd)

/-- With the addresses strictly rising, a listed cell is the first of its address. -/
theorem Memory.read_of_mem {m : Memory} (hrising : m.Pairwise fun c d => c.1 < d.1) {c : Host.Cell} (hc : c ∈ m) :
    m.read font c.1 = c.2 := by
  induction m with
  | nil => exact absurd hc List.not_mem_nil
  | cons d rest ih =>
    obtain ⟨hfirst, hrest⟩ := List.pairwise_cons.mp hrising
    obtain rfl | hc := List.mem_cons.mp hc
    · exact if_pos rfl
    · rw [Memory.read, if_neg (hfirst c hc).ne]
      exact ih hrest hc

/-- Canonical memory lists exactly the bytes that differ from the reset contents. -/
theorem Memory.mem_iff_read {m : Memory} (h : m.wf font) (c : Host.Cell) :
    c ∈ m ↔ m.read font c.1 = c.2 ∧ c.2 ≠ initialByte font c.1 := by
  obtain ⟨hrising, hcells⟩ := h
  refine ⟨fun hc => ⟨Memory.read_of_mem hrising hc, (hcells c hc).2⟩, fun ⟨hread, hdiffers⟩ => ?_⟩
  have hlisted : ∃ d ∈ m, d.1 = c.1 := by
    by_contra hnone
    exact hdiffers (hread.symm.trans (Memory.read_of_not_listed fun d hd he => hnone ⟨d, hd, he⟩))
  obtain ⟨d, hd, haddr⟩ := hlisted
  have hbyte : d.2 = c.2 := by rw [← Memory.read_of_mem hrising hd, haddr, hread]
  exact Prod.ext haddr hbyte ▸ hd

end Sys2Proof.Machine

namespace Sys2Proof.Proofs

open Sys2Proof.Machine

/-- Settles O60: the bytes fix which cells are listed, and rising addresses fix their order. -/
theorem canonicalMemoryIsUnique : Obligations.CanonicalMemoryIsUnique := by
  intro font m m' hm hm' hread
  have hasymm : Std.Asymm fun c d : Host.Cell => c.1 < d.1 := ⟨fun _ _ => Nat.lt_asymm⟩
  refine hm.1.eq_of_mem_iff hm'.1 fun c => ?_
  rw [Memory.mem_iff_read hm, Memory.mem_iff_read hm', hread]

end Sys2Proof.Proofs
end

section
/-! PROOFS. Which instructions can change VF, memory, the grids, RD and the stack (spec/10_state.md sections 2, 5, 7 and 10). -/

namespace Sys2Proof.Machine

/-! ## Where a register changes -/

theorem eq_of_reg_setReg_ne {s : State} {x k : RegIx} {b : Byte} (h : (s.setReg x b).reg k ≠ s.reg k) : x = k :=
  by_contra fun hne => h (s.reg_setReg_other b (Ne.symm hne))

theorem eq_VF_of_execLdKey {x : RegIx} {s t : State} (h : execLdKey x s = .next t) (hVF : t.reg VF ≠ s.reg VF) : x = VF := by
  cases hkey : lowestKey s.keys with
  | none =>
    obtain rfl := Host.Outcome.next.inj ((execLdKey_noKey ((lowestKey_none _).mp hkey) x).symm.trans h)
    exact absurd rfl hVF
  | some k =>
    obtain rfl := Host.Outcome.next.inj ((execLdKey_lowest hkey x).symm.trans h)
    exact eq_of_reg_setReg_ne hVF

/-- FX65 reaches VF, the last register, with X = F alone. -/
theorem eq_VF_of_execLoadRegs {x : RegIx} {s t : State} (h : execLoadRegs x s = .next t) (hVF : t.reg VF ≠ s.reg VF) : x = VF := by
  obtain rfl | rfl := State.checkRange_next h
  · by_contra hne
    have hbelow : ¬VF ≤ x := fun hle => hne (Fin.last_le_iff.mp hle)
    exact hVF (by rw [reg_regsLoaded, if_neg hbelow])
  · exact absurd rfl hVF

/-- DRW raises RD or leaves it (R204). -/
theorem exec_drw_rd {x y : RegIx} {n : Nibble} {s t : State} (h : exec (.drw x y n) s = .next t) (hrd : s.rd = true) : t.rd = true := by
  by_cases hr : RangeOk s.i n.toNat
  · obtain rfl := Host.Outcome.next.inj ((exec_drw_inside ((rangeOk_rows_iff _ _).mp hr) x y).symm.trans h)
    exact (afterDrw_rd s x y n).mpr (.inl hrd)
  · obtain rfl := Host.Outcome.next.inj ((s.checkRange_outside hr _).symm.trans h)
    exact hrd

end Sys2Proof.Machine

namespace Sys2Proof.Proofs

open Sys2Proof.Machine

/-- Settles O58: each clause is read off the frame of the instruction; that RD is not cleared needs a look into DRW alone. -/
theorem whoWritesMemoryScreenStack : Obligations.WhoWritesMemoryScreenStack := by
  intro i s t h
  have hframe := exec_frame h
  cases i with
  | drw x y n =>
    have hrd := exec_drw_rd h
    rw [hframe]
    simpa using hrd
  -- Of every other instruction the frame leaves RD out, and a field in it is one whose clause names the instruction.
  | _ => rw [hframe]; simp

/-- Settles O59: an instruction that is no flag writer writes one register, or registers up to one, or none. -/
theorem whoWritesFlagRegister : Obligations.WhoWritesFlagRegister := by
  intro i s t h hVF
  have hframe := exec_frame h
  cases i with
  | addReg | subReg | shr | subnReg | shl | drw => left; simp
  | ldImm | addImm | ldReg | orReg | andReg | xorReg | rnd | ldDt =>
    obtain rfl := Host.Outcome.next.inj h
    obtain rfl := eq_of_reg_setReg_ne hVF
    right; simp
  | ldKey =>
    obtain rfl := eq_VF_of_execLdKey h hVF
    right; simp
  | loadRegs =>
    obtain rfl := eq_VF_of_execLoadRegs h hVF
    right; simp
  -- The registers lie outside every other frame.
  | _ =>
    rw [hframe] at hVF
    exact absurd rfl hVF

end Sys2Proof.Proofs
end
